-- ==== Sys2Proof/Word.lean ====
section
/-! DEFINITION. The three kinds of word the spec treats as bits: bytes, 32-bit words, 12-bit window offsets. -/

namespace Sys2Proof

/-- A byte of memory or of a byte table (10_state.md R11, R12, R29). -/
abbrev Byte := BitVec 8

/-- An `XLEN` = 32 bit value: operand registers, window words, command words, accumulator (00_scope.md R5, D2). -/
abbrev Word := BitVec 32

/-- A byte offset inside the 4 KiB register window, 0x000 to 0xFFF (30_encoding.md R67). -/
abbrev Offset := BitVec 12

end Sys2Proof
end

