-- ==== Sys2Proof/Config.lean ====
section
/-! DEFINITION. What is fixed for the machine: the constants of 00_scope.md R5, the open parameter `BASE`, and the
free value a faulting register read returns. The other open parameter, `MEM_ADMIT`, is plain data in State
(`Machine.Platform`), so that a run can be evaluated under any platform. -/

namespace Sys2Proof.Config

/-- `ADDR_BITS` = 32: the number of bytes the memory port addresses is `2 ^ ADDR_BITS` (R5, R40). -/
def addressLimit : Nat := 2 ^ 32

/-- `ECC_POLY`, the 9-bit feedback constant of the ECC tables (R5, R81). -/
def eccPoly : BitVec 9 := 0x11D#9

/-- `EDC_POLY`, the 32-bit feedback constant of the EDC table (R5, R82). -/
def edcPoly : Word := 0xD8018001#32

/-- `BASE`, where the platform puts the register window: OPEN, no rule depends on its value (R5, D23).
No body: nothing can be proved of its value. -/
opaque base : Nat

/-- The data a faulting register read returns, "unspecified (any 32-bit value)" (43_register_access.md R117, R123,
R125, R126; U6). The argument is `State.freeCount`, so that each such read has a value of its own. No body. -/
opaque freeRead : Nat → Word

end Sys2Proof.Config
end

