-- ==== Sys2Proof/Syntax.lean ====
section
/-! DEFINITION. The commands of the opcode table, the host's transactions on the register window, the events of a
host's script, and the abstract form of the assembler's statements (30_encoding.md R63, R67 to R69). -/

namespace Sys2Proof

/-- The complete command set, one constructor per row of the opcode map (R63). No command carries an operand (R62). -/
inductive Instr where
  | init
  | edc
  | ecc
  deriving DecidableEq, Repr

/-- Width of a bus access to the register window. Only `word` is legal (43_register_access.md R117). -/
inductive Width where
  | byte
  | half
  | word
  | double
  deriving DecidableEq, Repr

/-- A host transaction on the register window: kind, offset, width, and for a write the data (R67, R115). -/
inductive Transaction where
  | write (offset : Offset) (width : Width) (data : Word)
  | read (offset : Offset) (width : Width)
  deriving DecidableEq, Repr

/-- What a host can do: a transaction (R115), a byte access to the memory it owns (20_memory.md R50, R55;
10_state.md R29), or applying the external reset (70_reset_and_hazards.md R150). With several hosts the
script is their actions in the total order in which they are served (60_exceptions.md R144). -/
inductive HostEvent where
  | access (t : Transaction)
  | storeByte (address : Word) (value : Byte)
  | loadByte (address : Word)
  | reset
  deriving DecidableEq, Repr

/-- The seven operand registers x[0] to x[6], by name (10_state.md R16). -/
inductive OperandReg where
  | src
  | len
  | dst
  | majorCount
  | minorCount
  | majorMult
  | minorInc
  deriving DecidableEq, Repr

/-- The three lookup tables (10_state.md R11 to R13). -/
inductive TableName where
  | eccF
  | eccB
  | edcT
  deriving DecidableEq, Repr

/-- `<reg>` of an assembler statement: a register name, a table word or a bare window offset (R68). -/
inductive RegName where
  | cmd
  | status
  | ctrl
  | einfo
  | operand (r : OperandReg)
  | entry (t : TableName) (index : Nat)
  | bare (offset : Nat)
  deriving DecidableEq, Repr

/-- The basic statements of R68. -/
inductive Statement where
  | wr (reg : RegName) (value : Nat)
  | rd (reg : RegName)
  | command (i : Instr)
  deriving DecidableEq, Repr

/-- The pseudo-instructions of R69. -/
inductive Pseudo where
  | initTables
  | computeEdc (src len dst : Nat)
  | computeEcc (src majorCount minorCount majorMult minorInc dst : Nat)
  | setForm2 (v : Nat)
  deriving DecidableEq, Repr

/-- One source line: a basic statement or a pseudo-instruction. -/
inductive SourceLine where
  | basic (st : Statement)
  | pseudo (p : Pseudo)
  deriving DecidableEq, Repr

end Sys2Proof
end

