-- ==== Sys2Proof/WellFormed.lean ====
section
/-! DEFINITION. The checks that make a term of Syntax one the spec admits. -/

namespace Sys2Proof

/-- Every command is well formed: its word has no operand field to fill wrongly (30_encoding.md R61, R62). -/
def Instr.wf : Instr → Bool
  | .init => true
  | .edc => true
  | .ecc => true

/-- A whole, aligned 32-bit access (43_register_access.md R117). -/
def wholeAligned (offset : Offset) (width : Width) : Bool :=
  width == .word && offset.toNat % 4 == 0

/-- A transaction the window accepts by width and alignment; any other raises `E_REGACC` (R117). -/
def Transaction.wf : Transaction → Bool
  | .write o w _ => wholeAligned o w
  | .read o w => wholeAligned o w

/-- "Numbers ... must fit 32 bits" (30_encoding.md R68). -/
def fitsWord (n : Nat) : Bool := n < 2 ^ 32

/-- A table word has `0 <= i <= 255`; a bare offset is one of the window, 0x000 to 0xFFF (R67, R68). -/
def RegName.wf : RegName → Bool
  | .cmd | .status | .ctrl | .einfo | .operand _ => true
  | .entry _ i => i ≤ 255
  | .bare o => o < 4096

/-- A basic statement whose register and number are ones of R68. -/
def Statement.wf : Statement → Bool
  | .wr r v => r.wf && fitsWord v
  | .rd r => r.wf
  | .command i => i.wf

/-- A pseudo-instruction whose numbers fit; the argument of `SET_FORM2` "is 0 or 1" (R69). -/
def Pseudo.wf : Pseudo → Bool
  | .initTables => true
  | .computeEdc a b c => fitsWord a && fitsWord b && fitsWord c
  | .computeEcc a b c d e f =>
      fitsWord a && fitsWord b && fitsWord c && fitsWord d && fitsWord e && fitsWord f
  | .setForm2 v => v ≤ 1

/-- A source line the assembler accepts. -/
def SourceLine.wf : SourceLine → Bool
  | .basic st => st.wf
  | .pseudo p => p.wf

end Sys2Proof
end

