-- ==== Sys2Proof/Decode.lean ====
section
/-! DEFINITION. Decoding of command words and window offsets, total on every word and every offset, and the encoders
written from the same tables (30_encoding.md R60 to R65, R68; 10_state.md section 5). -/

namespace Sys2Proof

/-- Result of decoding a word: "every 32-bit word decodes to INIT, EDC, ECC or illegal" (R64). -/
inductive Decoded where
  | command (i : Instr)
  | illegal (w : Word)
  deriving DecidableEq, Repr

/-- Field `MBZ`, bits[31:8] of format C (R61). -/
def mbzField (w : Word) : BitVec 24 := w.extractLsb' 8 24

/-- Field `OPC`, bits[7:0] of format C (R61). -/
def opcField (w : Word) : Byte := w.extractLsb' 0 8

/-- The operation codes of the opcode map (R63). -/
def decodeOpc (opc : Byte) : Option Instr :=
  if opc = 0x01#8 then some .init
  else if opc = 0x02#8 then some .edc
  else if opc = 0x03#8 then some .ecc
  else none

/-- Decode a command word: a non-zero `MBZ` field is illegal whatever `OPC` holds (R61, R63, R64). -/
def decode (w : Word) : Decoded :=
  if mbzField w = 0#24 then
    match decodeOpc (opcField w) with
    | some i => .command i
    | none => .illegal w
  else .illegal w

/-- The word of a command, field by field: `MBZ` = 0, `OPC` from the opcode map (R61, R63). -/
def encodeOpc : Instr → Byte
  | .init => 0x01#8
  | .edc => 0x02#8
  | .ecc => 0x03#8

/-- The one encoding of each command (R63). -/
def encode (i : Instr) : Word := (0#24 ++ encodeOpc i : BitVec (24 + 8))

/-- A row of the machine-readable opcode table: "a word w selects a row when `w & mask = match`" (R63). -/
structure OpcodeRow where
  instr : Instr
  pattern : Word
  mask : Word
  deriving DecidableEq, Repr

/-- opcode_table.json, row by row. -/
def opcodeTable : List OpcodeRow :=
  [⟨.init, 0x00000001#32, 0xFFFFFFFF#32⟩,
   ⟨.edc, 0x00000002#32, 0xFFFFFFFF#32⟩,
   ⟨.ecc, 0x00000003#32, 0xFFFFFFFF#32⟩]

/-- `w & mask = match` (R63). -/
def OpcodeRow.selects (r : OpcodeRow) (w : Word) : Bool := w &&& r.mask == r.pattern

/-- The instruction read from a word of `nbits` bits given as a number, the bits above `nbits` zero. A command
is one 32-bit word (R60, R65), so bit 0 of the number is bit 0 of the command word. -/
def decodeTableWord (nbits w : Nat) : Option Instr :=
  match decode (BitVec.ofNat 32 (w % 2 ^ nbits)) with
  | .command i => some i
  | .illegal _ => none

/-- What an aligned window offset names (10_state.md section 5). -/
inductive WindowReg where
  | cmd
  | status
  | ctrl
  | einfo
  | operand (r : OperandReg)
  | reserved
  | entry (t : TableName) (index : Byte)
  deriving DecidableEq, Repr

/-- The registers of the first 1 KiB of the window; every other word of it is reserved (10_state.md section 5). -/
def controlReg (offset : Nat) : WindowReg :=
  match offset with
  | 0x000 => .cmd
  | 0x004 => .status
  | 0x008 => .ctrl
  | 0x00C => .einfo
  | 0x010 => .operand .src
  | 0x014 => .operand .len
  | 0x018 => .operand .dst
  | 0x01C => .operand .majorCount
  | 0x020 => .operand .minorCount
  | 0x024 => .operand .majorMult
  | 0x028 => .operand .minorInc
  | _ => .reserved

/-- The entry number of a table window word: word i of a 1 KiB window is entry i (R27; 10_state.md section 5). -/
def entryIndex (o : Offset) : Byte := o.extractLsb' 2 8

/-- The register map as a decoder of window offsets (10_state.md section 5). Offsets that are no multiple of 4
are turned away before this is asked (43_register_access.md R116). -/
def windowReg (o : Offset) : WindowReg :=
  if o.toNat < 0x400 then controlReg o.toNat
  else if o.toNat < 0x800 then .entry .eccF (entryIndex o)
  else if o.toNat < 0xC00 then .entry .eccB (entryIndex o)
  else .entry .edcT (entryIndex o)

/-- Window offset of an operand register, x[i] at 0x10 + 4*i (10_state.md R16). -/
def OperandReg.offset : OperandReg → Nat
  | .src => 0x10
  | .len => 0x14
  | .dst => 0x18
  | .majorCount => 0x1C
  | .minorCount => 0x20
  | .majorMult => 0x24
  | .minorInc => 0x28

/-- Offset of a table's window: `ECC_F[i]` is 0x400 + 4*i, `ECC_B[i]` 0x800 + 4*i, `EDC_T[i]` 0xC00 + 4*i (R68). -/
def TableName.windowBase : TableName → Nat
  | .eccF => 0x400
  | .eccB => 0x800
  | .edcT => 0xC00

/-- Offset of a named register, the encoder of the register map (R68; 10_state.md section 5). -/
def RegName.offset : RegName → Nat
  | .cmd => 0x000
  | .status => 0x004
  | .ctrl => 0x008
  | .einfo => 0x00C
  | .operand r => r.offset
  | .entry t i => t.windowBase + 4 * i
  | .bare o => o

/-- The transaction a basic statement stands for (R68). -/
def Statement.encode : Statement → Transaction
  | .wr r v => .write (BitVec.ofNat 12 r.offset) .word (BitVec.ofNat 32 v)
  | .rd r => .read (BitVec.ofNat 12 r.offset) .word
  | .command i => .write 0x000#12 .word (Sys2Proof.encode i)

/-- The basic statements a pseudo-instruction expands to, in the listed order (R69). -/
def Pseudo.expand : Pseudo → List Statement
  | .initTables => [.command .init]
  | .computeEdc src len dst =>
      [.wr (.operand .src) src, .wr (.operand .len) len, .wr (.operand .dst) dst, .command .edc]
  | .computeEcc src majorCount minorCount majorMult minorInc dst =>
      [.wr (.operand .src) src, .wr (.operand .majorCount) majorCount,
       .wr (.operand .minorCount) minorCount, .wr (.operand .majorMult) majorMult,
       .wr (.operand .minorInc) minorInc, .wr (.operand .dst) dst, .command .ecc]
  | .setForm2 v => [.wr .ctrl v]

/-- The basic statements of a source line. -/
def SourceLine.expand : SourceLine → List Statement
  | .basic st => [st]
  | .pseudo p => p.expand

/-- The transactions of a source text, or none if a line is not well formed (R68, R69). -/
def assemble (ls : List SourceLine) : Option (List Transaction) :=
  if ls.all SourceLine.wf then some (ls.flatMap fun l => l.expand.map Statement.encode) else none

end Sys2Proof
end

