-- ==== Sys2Proof/Machine/State.lean ====
section
/-! DEFINITION. The machine's state as plain data, the reasons a step can stop, and the state after reset
(10_state.md R10, R30). -/

namespace Sys2Proof.Machine

/-- A lookup table: `NTAB` = 256 entries, index 0 to 255 (00_scope.md R5; 10_state.md R11 to R13). -/
abbrev Table (α : Type) := Vector α 256

/-- The three lookup tables, which only INIT writes (10_state.md R11 to R14). -/
structure Tables where
  eccF : Table Byte
  eccB : Table Byte
  edcT : Table Word
  deriving DecidableEq, Repr

/-- The seven operand registers x[0] to x[6], 32 bits each, in the order of their numbers (R16). -/
structure Operands where
  src : Word
  len : Word
  dst : Word
  majorCount : Word
  minorCount : Word
  majorMult : Word
  minorInc : Word
  deriving DecidableEq, Repr

/-- Memory: (address, byte) pairs, addresses strictly rising, no entry equal to what an unlisted address reads as. -/
abbrev Memory := List Host.Cell

/-- Kind of a byte access on the core's memory port, the second argument of `MEM_ADMIT` (00_scope.md R5). -/
inductive AccessKind where
  | read
  | write
  deriving DecidableEq, Repr

/-- One access of the core's memory port; every one is one byte wide (20_memory.md R46). -/
structure Access where
  kind : AccessKind
  address : Nat
  deriving DecidableEq, Repr

/-- Addresses `first` to `last` that the platform does not admit for accesses of a kind. -/
structure RefusedRange where
  kind : AccessKind
  first : Nat
  last : Nat
  deriving DecidableEq, Repr

/-- The open parameter `MEM_ADMIT` as plain data: everything is admitted but what is listed (R5, D22). Any predicate
on (address, kind) over the 2^32 addresses is some list. It is no state of the core: no step changes it. -/
structure Platform where
  refused : List RefusedRange
  deriving DecidableEq, Repr

/-- The whole machine: the core's state of R10, then the host's memory and script, then what the model itself keeps. -/
structure State where
  /-- `ECC_F`, `ECC_B`, `EDC_T` (R11 to R13). -/
  tables : Tables
  /-- `TV`, tables valid (R15). -/
  tv : Bool
  /-- x[0] to x[6] (R16). -/
  x : Operands
  /-- `CTRL.FORM2_EDC` (R24). -/
  form2Edc : Bool
  /-- `ERR`, the sticky fault latch (R23). -/
  err : Bool
  /-- `CAUSE`, 4 bits of `STATUS` (R23). -/
  cause : BitVec 4
  /-- `EINFO` (R25). -/
  einfo : Word
  /-- `Mem` (R29). -/
  mem : Memory
  /-- `MEM_ADMIT` (R5): fixed for the machine. -/
  platform : Platform
  /-- The host's script, what R22 calls a program. -/
  program : List HostEvent
  /-- Index of the script's next event (R22); the host's bookkeeping, not the core's. -/
  pc : Nat
  /-- The model's own: the data returned to the host by its reads so far, newest first (R115 "returns 32 bits of data"). -/
  readLog : List Word
  /-- The model's own: how many free values have been used (`Config.freeRead`). -/
  freeCount : Nat
  deriving DecidableEq, Repr

/-- Why a step can stop the machine. -/
inductive Fault where
  /-- Raised by EDC and ECC when `MEM_ADMIT` is false for a byte the command would read or write: "the command has
  no step" (60_exceptions.md R145). Safe: the hardware has no step there either. -/
  | stuck
  deriving DecidableEq, Repr

/-- Why a step can be refused. No arm of `exec` and no meaning raises one. -/
inductive Refusal where
  /-- An instruction without a meaning yet, raised only by `exec`'s own arms. Safe: the machine stops. -/
  | notModelled (mnemonic : String)
  deriving DecidableEq, Repr

/-- The causes of R132 that a fault can have; codes 0 and 6 to 15 are no fault's. -/
inductive Cause where
  | illCmd
  | notInit
  | geometry
  | range
  | regAcc
  deriving DecidableEq, Repr

/-- Table contents the model names for reset, where the spec has them "unspecified (and unobservable)" (R30).
DESIGN CHOICE, log entry 1. -/
def Tables.atReset : Tables :=
  ⟨Vector.replicate 256 0#8, Vector.replicate 256 0#8, Vector.replicate 256 0#32⟩

/-- Every operand register holds 0 (R30). -/
def Operands.atReset : Operands := ⟨0#32, 0#32, 0#32, 0#32, 0#32, 0#32, 0#32⟩

/-- The machine right after reset: the core at the values of R30, nothing listed in memory, the default `MEM_ADMIT`
of R5 (everything admitted), and a host that has issued nothing. -/
def State.reset : State where
  tables := Tables.atReset
  tv := false
  x := Operands.atReset
  form2Edc := true
  err := false
  cause := 0#4
  einfo := 0#32
  mem := []
  platform := ⟨[]⟩
  program := []
  pc := 0
  readLog := []
  freeCount := 0

end Sys2Proof.Machine
end

