-- ==== Sys2Proof/Machine/Flags.lean ====
section
/-! DEFINITION. The only flags of the hardware, those of `STATUS`: there are no arithmetic condition codes
(10_state.md R23). Cause codes, and the words the host reads from `STATUS` and `CTRL`. -/

namespace Sys2Proof.Machine

/-- The code of a cause (60_exceptions.md R132). -/
def Cause.code : Cause → BitVec 4
  | .illCmd => 1#4
  | .notInit => 2#4
  | .geometry => 3#4
  | .range => 4#4
  | .regAcc => 5#4

/-- `STATUS`, `TV | ERR << 1 | CAUSE << 4`: bit 0 `TV`, bit 1 `ERR`, bits[7:4] `CAUSE`, the rest zero (R23; R122). -/
def statusWord (s : State) : Word :=
  (BitVec.ofBool s.tv).setWidth 32
    ||| ((BitVec.ofBool s.err).setWidth 32 <<< 1)
    ||| (s.cause.setWidth 32 <<< 4)

/-- `CTRL`, `zext_32(FORM2_EDC)`: bits[31:1] read as zero (10_state.md R24; 43_register_access.md R122). -/
def ctrlWord (s : State) : Word := (BitVec.ofBool s.form2Edc).setWidth 32

end Sys2Proof.Machine
end

