-- ==== Sys2Proof/Machine/Operands.lean ====
section
/-! DEFINITION. The operand registers as the host and the commands read them (10_state.md R16 to R21; 30_encoding.md
R62). Commands take every value as an unsigned number, with no extension. -/

namespace Sys2Proof.Machine

/-- Read x[i], by name (R16). -/
def Operands.get (x : Operands) : OperandReg → Word
  | .src => x.src
  | .len => x.len
  | .dst => x.dst
  | .majorCount => x.majorCount
  | .minorCount => x.minorCount
  | .majorMult => x.majorMult
  | .minorInc => x.minorInc

/-- Write x[i], all 32 bits (43_register_access.md R118). -/
def Operands.set (x : Operands) (r : OperandReg) (v : Word) : Operands :=
  match r with
  | .src => { x with src := v }
  | .len => { x with len := v }
  | .dst => { x with dst := v }
  | .majorCount => { x with majorCount := v }
  | .minorCount => { x with minorCount := v }
  | .majorMult => { x with majorMult := v }
  | .minorInc => { x with minorInc := v }

/-- What EDC reads when it executes: x[0], x[1], x[2], on unbounded naturals (R62; 00_scope.md R7). -/
structure EdcArgs where
  src : Nat
  len : Nat
  dst : Nat
  deriving DecidableEq, Repr

/-- The operands of an EDC command (R62). -/
def Operands.edcArgs (x : Operands) : EdcArgs := ⟨x.src.toNat, x.len.toNat, x.dst.toNat⟩

/-- What ECC reads when it executes: x[0], x[2] to x[6], on unbounded naturals (R62, R21). -/
structure EccArgs where
  src : Nat
  dst : Nat
  majorCount : Nat
  minorCount : Nat
  majorMult : Nat
  minorInc : Nat
  deriving DecidableEq, Repr

/-- The operands of an ECC command (R62). -/
def Operands.eccArgs (x : Operands) : EccArgs :=
  ⟨x.src.toNat, x.dst.toNat, x.majorCount.toNat, x.minorCount.toNat, x.majorMult.toNat, x.minorInc.toNat⟩

end Sys2Proof.Machine
end

