-- ==== Sys2Proof/Machine/Ops.lean ====
section
/-! DEFINITION. The shared operations: memory, table entries, the platform's admission, raising a fault, leaving the
faulted state (reset is the only way), and data returned to the host. -/

namespace Sys2Proof.Machine

/-- What a byte of memory that nothing has written reads as. DESIGN CHOICE, log entry 2 (R30: "unspecified at
power-up"). -/
def Memory.unlisted : Byte := 0#8

/-- Entries in canonical form from address `lo` on. -/
def Memory.wfFrom : Nat → Memory → Bool
  | _, [] => true
  | lo, (a, v) :: m =>
    decide (lo ≤ a) && decide (a < Config.addressLimit) && (v != Memory.unlisted) && Memory.wfFrom (a + 1) m

/-- The canonical form: addresses strictly rising and below 2^32 (10_state.md R29), no entry equal to `unlisted`. -/
def Memory.wf (m : Memory) : Bool := Memory.wfFrom 0 m

/-- `MemRead(addr, 1)` (20_memory.md R41). -/
def Memory.read : Memory → Nat → Byte
  | [], _ => Memory.unlisted
  | (k, v) :: m, a => if k = a then v else Memory.read m a

/-- `MemWrite(addr, 1, v)` (20_memory.md R41), keeping the canonical form. -/
def Memory.write : Memory → Nat → Byte → Memory
  | [], a, v => if v = Memory.unlisted then [] else [(a, v)]
  | (k, w) :: m, a, v =>
    if a < k then (if v = Memory.unlisted then (k, w) :: m else (a, v) :: (k, w) :: m)
    else if a = k then (if v = Memory.unlisted then m else (a, v) :: m)
    else (k, w) :: Memory.write m a v

/-- Byte k of a 32-bit value, `bits[8k+7 : 8k]` (00_scope.md R6). -/
def byteOf (w : Word) (k : Nat) : Byte := (w >>> (8 * k)).setWidth 8

/-- Store a 32-bit value as four byte writes in ascending address order, least significant byte first
(20_memory.md R42, R46). -/
def Memory.writeWordLE (m : Memory) (a : Nat) (w : Word) : Memory :=
  (((m.write a (byteOf w 0)).write (a + 1) (byteOf w 1)).write (a + 2) (byteOf w 2)).write (a + 3) (byteOf w 3)

/-- `ECC_F[i]` for a byte i. -/
def Tables.eccFAt (t : Tables) (i : Byte) : Byte := t.eccF[i.toNat]'(i.isLt)

/-- `ECC_B[i]` for a byte i. -/
def Tables.eccBAt (t : Tables) (i : Byte) : Byte := t.eccB[i.toNat]'(i.isLt)

/-- `EDC_T[i]` for a byte i. -/
def Tables.edcTAt (t : Tables) (i : Byte) : Word := t.edcT[i.toNat]'(i.isLt)

/-- A table entry as the host reads it, byte entries zero-extended (10_state.md R27). -/
def Tables.entryWord (t : Tables) (n : TableName) (i : Byte) : Word :=
  match n with
  | .eccF => (t.eccFAt i).setWidth 32
  | .eccB => (t.eccBAt i).setWidth 32
  | .edcT => t.edcTAt i

/-- Does a refused range cover an access? -/
def RefusedRange.covers (r : RefusedRange) (a : Access) : Bool :=
  r.kind == a.kind && decide (r.first ≤ a.address) && decide (a.address ≤ r.last)

/-- `MEM_ADMIT(addr, kind)` (00_scope.md R5). -/
def Platform.admits (p : Platform) (a : Access) : Bool := p.refused.all fun r => !r.covers a

/-- `MEM_ADMIT` for every access of a command, asked before the first of them: a command with one that is not
admitted has no step (60_exceptions.md R145). -/
def Platform.admitsAll (p : Platform) (as : List Access) : Bool :=
  p.refused.isEmpty || as.all p.admits

/-- `raise <Cause>(info)`, the one way a fault is taken: the first fault sets `ERR`, `CAUSE` and `EINFO` and nothing
else; at `ERR = 1` nothing changes. There is no vector, no saved pc and no mode (60_exceptions.md R131, R139). -/
def raise (c : Cause) (info : Word) (s : State) : State :=
  if s.err then s else { s with err := true, cause := c.code, einfo := info }

/-- The return from a fault: reset is the only one (60_exceptions.md R141). Every piece of core state goes to its
value of R30, memory is untouched (70_reset_and_hazards.md R150, R151); what is not the core's (platform, script and
its index, data the host has read) stays. -/
def coreReset (s : State) : State :=
  { s with
    tables := State.reset.tables
    tv := State.reset.tv
    x := State.reset.x
    form2Edc := State.reset.form2Edc
    err := State.reset.err
    cause := State.reset.cause
    einfo := State.reset.einfo }

/-- A read that completes with data (43_register_access.md R115, R122). -/
def returnData (v : Word) (s : State) : State := { s with readLog := v :: s.readLog }

/-- A read that faults: the fault is raised (kept out by an earlier one) and the data returned is unspecified, a free
value (43_register_access.md R117, R123, R125, R126; U6). -/
def faultingRead (c : Cause) (info : Word) (s : State) : State :=
  let t := raise c info s
  { t with readLog := Config.freeRead s.freeCount :: s.readLog, freeCount := s.freeCount + 1 }

/-- A transaction or other event of the script is over: `pc` advances by exactly 1 (10_state.md R22). -/
def advance (s : State) : State := { s with pc := s.pc + 1 }

end Sys2Proof.Machine
end

