-- ==== Sys2Proof/Machine/EccEngine.lean ====
section
/-! DEFINITION. The ECC Engine: the ECC command (42_ecc_engine.md). Index arithmetic is on unbounded naturals. -/

namespace Sys2Proof.Machine

/-- The span, `major_count * minor_count` (R101). -/
def EccArgs.size (g : EccArgs) : Nat := g.majorCount * g.minorCount

/-- Lane start, `(major >> 1) * major_mult + (major & 1)` (R102). -/
def EccArgs.laneStart (g : EccArgs) (major : Nat) : Nat := (major >>> 1) * g.majorMult + (major &&& 1)

/-- Advance and wrap: add `minor_inc`, then one subtraction of `size` if the span is reached or passed (R104). -/
def EccArgs.advanceIndex (g : EccArgs) (index : Nat) : Nat :=
  if index + g.minorInc ≥ g.size then index + g.minorInc - g.size else index + g.minorInc

/-- The working values of a lane (10_state.md R28). -/
structure Lane where
  index : Nat
  a : Byte
  b : Byte
  deriving DecidableEq, Repr

/-- One sample: read at the index held before the advance, advance, `a ^= t`, `b ^= t`, `a = ECC_F[a]` (R103). -/
def laneStep (t : Tables) (m : Memory) (g : EccArgs) (l : Lane) : Lane :=
  let d := m.read (g.src + l.index)
  { index := g.advanceIndex l.index, a := t.eccFAt (l.a ^^^ d), b := l.b ^^^ d }

/-- `n` samples. -/
def laneLoop (t : Tables) (m : Memory) (g : EccArgs) : Nat → Lane → Lane
  | 0, l => l
  | n + 1, l => laneLoop t m g n (laneStep t m g l)

/-- Finalisation, `ECC_B[ECC_F[a] ^ b]` (R105). -/
def finalise (t : Tables) (a b : Byte) : Byte := t.eccBAt (t.eccFAt a ^^^ b)

/-- Lane `major` after its loop, from `a = 0`, `b = 0` (R102, R103). -/
def laneResult (t : Tables) (m : Memory) (g : EccArgs) (major : Nat) : Lane :=
  laneLoop t m g g.minorCount ⟨g.laneStart major, 0#8, 0#8⟩

/-- A whole lane on memory: its reads, then `dest[major]` and `dest[major + major_count]` (R106; 20_memory.md R48). -/
def runLane (t : Tables) (g : EccArgs) (m : Memory) (major : Nat) : Memory :=
  let l := laneResult t m g major
  let p := finalise t l.a l.b
  (m.write (g.dst + major) p).write (g.dst + major + g.majorCount) (p ^^^ l.b)

/-- `n` lanes from lane `major` on, in order, each on the memory the one before left (R100; 20_memory.md R48, R49). -/
def runLanes (t : Tables) (g : EccArgs) : Nat → Nat → Memory → Memory
  | 0, _, m => m
  | n + 1, major, m => runLanes t g n (major + 1) (runLane t g m major)

/-- `GEOM_OK` (R107), the quantifier over lanes tested where the largest start index is: at the last lane and the one
before it. -/
def EccArgs.geomOk (g : EccArgs) : Bool :=
  g.majorCount == 0 || g.minorCount == 0 ||
    (decide (g.minorInc ≤ g.size) && decide (g.laneStart (g.majorCount - 1) < g.size)
      && (g.majorCount == 1 || decide (g.laneStart (g.majorCount - 2) < g.size)))

/-- "`SRC + size > 2^32` or `DST + 2 * MAJOR_COUNT > 2^32`" (R100; 60_exceptions.md R136). -/
def EccArgs.outOfRange (g : EccArgs) : Bool :=
  decide (g.src + g.size > Config.addressLimit) || decide (g.dst + 2 * g.majorCount > Config.addressLimit)

/-- The indices a lane reads, in order (R103, R104). -/
def EccArgs.indices (g : EccArgs) : Nat → Nat → List Nat
  | 0, _ => []
  | n + 1, index => index :: g.indices n (g.advanceIndex index)

/-- The accesses of one lane: its reads in sample order, then its two writes (20_memory.md R48). -/
def EccArgs.laneAccesses (g : EccArgs) (major : Nat) : List Access :=
  (g.indices g.minorCount (g.laneStart major)).map (fun i => ⟨.read, g.src + i⟩)
    ++ [⟨.write, g.dst + major⟩, ⟨.write, g.dst + major + g.majorCount⟩]

/-- The accesses of an ECC command in their order (20_memory.md R46, R48). -/
def EccArgs.accesses (g : EccArgs) : List Access := (List.range g.majorCount).flatMap g.laneAccesses

/-- ECC: the checks in their order, each before any access, then the lanes (R100). `EINFO` of its faults is its
command word (60_exceptions.md R132). -/
def execEcc (s : State) : Host.Outcome State Fault Refusal :=
  let g := s.x.eccArgs
  if s.tv = false then .next (raise .notInit (encode .ecc) s)
  else if g.geomOk = false then .next (raise .geometry (encode .ecc) s)
  else if g.outOfRange then .next (raise .range (encode .ecc) s)
  else if s.platform.admitsAll g.accesses then
    .next { s with mem := runLanes s.tables g g.majorCount 0 s.mem }
  else .fault .stuck

end Sys2Proof.Machine
end

