-- ==== Sys2Proof/Machine/EdcEngine.lean ====
section
/-! DEFINITION. The EDC Engine: the EDC command (41_edc_engine.md). -/

namespace Sys2Proof.Machine

/-- The accumulator step, `(acc >> 8) ^ EDC_T[(acc ^ byte) & 0xFF]` (R91). -/
def edcStep (t : Tables) (acc : Word) (b : Byte) : Word :=
  (acc >>> 8) ^^^ t.edcTAt ((acc ^^^ b.setWidth 32).setWidth 8)

/-- The loop of R90: `n` bytes from address `a` on, in ascending order (R48, R91). -/
def edcLoop (t : Tables) (m : Memory) : Nat → Nat → Word → Word
  | 0, _, acc => acc
  | n + 1, a, acc => edcLoop t m n (a + 1) (edcStep t acc (m.read a))

/-- The checksum of a source range; the accumulator starts at 0 and nothing is applied at the end (R91). -/
def edcChecksum (t : Tables) (m : Memory) (g : EdcArgs) : Word := edcLoop t m g.len g.src 0#32

/-- "`SRC + LEN > 2^32` or `DST + 4 > 2^32`" on unbounded naturals (R90; 60_exceptions.md R136). -/
def EdcArgs.outOfRange (g : EdcArgs) : Bool :=
  decide (g.src + g.len > Config.addressLimit) || decide (g.dst + 4 > Config.addressLimit)

/-- The accesses of an EDC command in their order: `LEN` reads, then 4 writes (20_memory.md R46, R48). -/
def EdcArgs.accesses (g : EdcArgs) : List Access :=
  (List.range g.len).map (fun k => ⟨.read, g.src + k⟩) ++ (List.range 4).map (fun k => ⟨.write, g.dst + k⟩)

/-- EDC: the checks in their order, each before any access, then the checksum stored little-endian at `DST` (R90, R92).
`EINFO` of its faults is its command word (60_exceptions.md R132). -/
def execEdc (s : State) : Host.Outcome State Fault Refusal :=
  let g := s.x.edcArgs
  if s.tv = false then .next (raise .notInit (encode .edc) s)
  else if g.outOfRange then .next (raise .range (encode .edc) s)
  else if s.platform.admitsAll g.accesses then
    .next { s with mem := s.mem.writeWordLE g.dst (edcChecksum s.tables s.mem g) }
  else .fault .stuck

end Sys2Proof.Machine
end

