-- ==== Sys2Proof/Machine/TableBuilder.lean ====
section
/-! DEFINITION. The Table Builder: the INIT command (40_table_builder.md). -/

namespace Sys2Proof.Machine

/-- `j` of R81, for the 8-bit i: `t = i << 1` on 9 bits, `t ^ (0x11D if i[7] = 1 else 0)`, a 9-bit XOR. -/
def eccFeedback (i : Byte) : BitVec 9 :=
  (i.setWidth 9 <<< 1) ^^^ (if i[7] then Config.eccPoly else 0#9)

/-- `j` as the 8-bit entry it is: bit 8 is always 0 (R81). -/
def eccForward (i : Byte) : Byte := (eccFeedback i).setWidth 8

/-- `build_ecc_entry(i)`: `ECC_F[i] <- j`, `ECC_B[i ^ j] <- i` (R81). -/
def buildEccEntry (i : Byte) (t : Tables) : Tables :=
  { t with
    eccF := t.eccF.set i.toNat (eccForward i) i.isLt
    eccB := t.eccB.set (i ^^^ eccForward i).toNat i (i ^^^ eccForward i).isLt }

/-- One round of R82: the low bit tested is the one before the round's shift; the shift is logical. -/
def edcRound (e : Word) : Word :=
  if e[0] then (e >>> 1) ^^^ Config.edcPoly else e >>> 1

/-- `n` rounds. -/
def edcRounds : Nat → Word → Word
  | 0, e => e
  | n + 1, e => edcRounds n (edcRound e)

/-- The value of `EDC_T[i]`: 8 rounds from `zext_32(i)` (R82). -/
def edcEntry (i : Byte) : Word := edcRounds 8 (i.setWidth 32)

/-- `build_edc_entry(i)` (R82). -/
def buildEdcEntry (i : Byte) (t : Tables) : Tables :=
  { t with edcT := t.edcT.set i.toNat (edcEntry i) i.isLt }

/-- One iteration of INIT's loop (R80). -/
def buildEntry (t : Tables) (i : Nat) : Tables :=
  buildEdcEntry (BitVec.ofNat 8 i) (buildEccEntry (BitVec.ofNat 8 i) t)

/-- `for i in 0 .. 255` (R80). -/
def buildTables (t : Tables) : Tables := (List.range 256).foldl buildEntry t

/-- INIT, as one indivisible step: builds the tables and sets `TV` at `TV = 0`, nothing at `TV = 1`; it cannot fault
(R80, R83). -/
def execInit (s : State) : Host.Outcome State Fault Refusal :=
  .next (if s.tv then s else { s with tables := buildTables s.tables, tv := true })

end Sys2Proof.Machine
end

