-- ==== Sys2Proof/Machine/Dispatch.lean ====
section
/-! DEFINITION. One arm per command: what the command does once its CMD write is accepted (43_register_access.md R120). -/

namespace Sys2Proof.Machine

def exec (i : Instr) (s : State) : Host.Outcome State Fault Refusal :=
  match i with
  | .init => Sys2Proof.Machine.execInit s
  | .edc => Sys2Proof.Machine.execEdc s
  | .ecc => Sys2Proof.Machine.execEcc s

end Sys2Proof.Machine
end

