-- ==== Sys2Proof/Machine/Window.lean ====
section
/-! DEFINITION. The host's transactions on the register window (43_register_access.md), and the other events of its
script. -/

namespace Sys2Proof.Machine

/-- A window offset as `EINFO` holds it, `zext_32(o)` (R117). -/
def offsetInfo (o : Offset) : Word := o.setWidth 32

/-- The bus address the platform carries a window access to, `BASE + offset` (30_encoding.md R67). -/
def busAddress (o : Offset) : Nat := Config.base + o.toNat

/-- The window bytes of a 32-bit register at offset o, for a platform that bridges the window to a byte-addressed bus:
bits[7:0] at byte o, little-endian (20_memory.md R44). -/
def windowBytes (o : Offset) (w : Word) : List (Nat × Byte) :=
  (List.range 4).map fun k => (busAddress o + k, byteOf w k)

/-- Write of `CMD`: execute the command the word encodes, to completion; any other word raises `E_ILLCMD` (R120;
30_encoding.md R64). -/
def writeCmd (w : Word) (s : State) : Host.Outcome State Fault Refusal :=
  match decode w with
  | .command i => exec i s
  | .illegal v => .next (raise .illCmd v s)

/-- Write of a whole aligned word at `ERR = 0` (R118 to R121). -/
def writeReg (o : Offset) (v : Word) (s : State) : Host.Outcome State Fault Refusal :=
  match windowReg o with
  | .cmd => writeCmd v s
  | .ctrl => .next { s with form2Edc := v[0] }
  | .operand r => .next { s with x := s.x.set r v }
  | .status | .einfo | .reserved | .entry _ _ => .next (raise .regAcc (offsetInfo o) s)

/-- Read of a whole aligned word (R122, R123, R125, R126). -/
def readReg (o : Offset) (s : State) : State :=
  match windowReg o with
  | .cmd => returnData 0#32 s
  | .status => returnData (statusWord s) s
  | .ctrl => returnData (ctrlWord s) s
  | .einfo => returnData s.einfo s
  | .operand r => returnData (s.x.get r) s
  | .entry n i =>
    if s.tv then returnData (s.tables.entryWord n i) s
    else faultingRead .notInit (offsetInfo o) s
  | .reserved => faultingRead .regAcc (offsetInfo o) s

/-- One transaction, its tests in the order of R116: a write at `ERR = 1` is ignored (R124), then width and alignment
(R117), then the offset. -/
def perform (t : Transaction) (s : State) : Host.Outcome State Fault Refusal :=
  match t with
  | .write o w v =>
    if s.err then .next s
    else if wholeAligned o w then writeReg o v s
    else .next (raise .regAcc (offsetInfo o) s)
  | .read o w =>
    .next (if wholeAligned o w then readReg o s else faultingRead .regAcc (offsetInfo o) s)

/-- One event of the host's script: a transaction, a byte access to the memory the host owns (20_memory.md R55;
10_state.md R29), or reset (70_reset_and_hazards.md R150). -/
def runEvent (e : HostEvent) (s : State) : Host.Outcome State Fault Refusal :=
  match e with
  | .access t => perform t s
  | .storeByte a v => .next { s with mem := s.mem.write a.toNat v }
  | .loadByte a => .next (returnData ((s.mem.read a.toNat).setWidth 32) s)
  | .reset => .next (coreReset s)

/-- An event that answers a next state is over, and the script goes on (10_state.md R22); a stuck one does not
advance it (60_exceptions.md R145). -/
def completed (o : Host.Outcome State Fault Refusal) : Host.Outcome State Fault Refusal :=
  match o with
  | .next s => .next (advance s)
  | .fault r => .fault r
  | .refused r => .refused r

/-- The next event of the script, none when the run has ended (10_state.md R22). -/
def State.pending (s : State) : Option HostEvent := s.program[s.pc]?

/-- The write of a command word to `CMD` as a script event (30_encoding.md R60, R68). -/
def cmdWrite (w : Word) : HostEvent := .access (.write 0x000#12 .word w)

/-- A script with one more event, to be performed next. -/
def insertEvent (e : HostEvent) (s : State) : State :=
  { s with
    program := s.program.take s.pc ++ e :: s.program.drop s.pc
    pc := min s.pc s.program.length }

end Sys2Proof.Machine
end

