-- ==== Sys2Proof/Machine/Step.lean ====
section
/-! DEFINITION. One step of the machine: the next event of the host's script. -/

namespace Sys2Proof.Machine

/-- The core fetches nothing; a step performs the script's next event to its end (10_state.md R22; 00_scope.md R9).
With the script at its end the core is idle and waits for transactions (70_reset_and_hazards.md R151): the state
stays. -/
def step (s : State) : Host.Outcome State Fault Refusal :=
  match s.pending with
  | none => .next s
  | some e => completed (runEvent e s)

/-- The state whose next event is the CMD write of the word w of `nbits` bits: the host hands the core a command this
way and no other (10_state.md R22, R26). -/
def State.withFetchWord (s : State) (nbits w : Nat) : State :=
  insertEvent (cmdWrite (BitVec.ofNat 32 (w % 2 ^ nbits))) s

end Sys2Proof.Machine
end

