-- ==== Sys2Proof/Machine/Assembler.lean ====
section
/-! DEFINITION. Reading the textual form of programs, "the only toolchain syntax the hardware has" (30_encoding.md R68,
R69): one statement a line, `;` comments, decimal or `0x` numbers. Text is a list of characters. -/

namespace Sys2Proof.Machine

/-- The text before a `;`, which "starts a comment that runs to the end of the line" (R68). -/
def stripComment (l : List Char) : List Char := l.takeWhile (· != ';')

/-- Cut a text at every character of a kind. -/
def cutAt (sep : Char → Bool) : List Char → List (List Char)
  | [] => [[]]
  | c :: cs =>
    match cutAt sep cs with
    | [] => [[c]]
    | w :: ws => if sep c then [] :: w :: ws else (c :: w) :: ws

/-- Characters between words. -/
def isBlank (c : Char) : Bool := c == ' ' || c == '\t' || c == '\r'

/-- The words of a text, with blanks between them. -/
def wordsOf (l : List Char) : List (List Char) := (cutAt isBlank l).filter (· != [])

/-- The operands of a statement, one word each, with a comma between each two as R68 and R69 write them. -/
def operandsOf (l : List Char) : Option (List (List Char)) :=
  if wordsOf l = [] then some []
  else (cutAt (· == ',') l).mapM fun operand =>
    match wordsOf operand with
    | [w] => some w
    | _ => none

/-- Value of a digit, in bases up to sixteen. -/
def digitValue (c : Char) : Option Nat :=
  if '0' ≤ c ∧ c ≤ '9' then some (c.toNat - '0'.toNat)
  else if 'a' ≤ c ∧ c ≤ 'f' then some (c.toNat - 'a'.toNat + 10)
  else if 'A' ≤ c ∧ c ≤ 'F' then some (c.toNat - 'A'.toNat + 10)
  else none

/-- Digits in a base, most significant first, after those already read. -/
def digitsFrom (base : Nat) : List Char → Nat → Option Nat
  | [], n => some n
  | c :: cs, n =>
    match digitValue c with
    | some d => if d < base then digitsFrom base cs (n * base + d) else none
    | none => none

/-- "Numbers are decimal or `0x` hexadecimal" (R68). -/
def parseNumber : List Char → Option Nat
  | [] => none
  | ['0', 'x'] => none
  | '0' :: 'x' :: ds => digitsFrom 16 ds 0
  | ds => digitsFrom 10 ds 0

/-- The table names of R68. -/
def tableNamed (w : List Char) : Option TableName :=
  if w = ['E', 'C', 'C', '_', 'F'] then some .eccF
  else if w = ['E', 'C', 'C', '_', 'B'] then some .eccB
  else if w = ['E', 'D', 'C', '_', 'T'] then some .edcT
  else none

/-- A table word, `ECC_F[i]`, `ECC_B[i]` or `EDC_T[i]`: a table's name, then a number between a `[` and a final `]`
(R68). -/
def parseEntry (w : List Char) : Option RegName :=
  match w.dropWhile (· != '[') with
  | '[' :: rest =>
    if rest.getLast? = some ']' then
      (tableNamed (w.takeWhile (· != '['))).bind fun t => (parseNumber rest.dropLast).map (.entry t)
    else none
  | _ => none

/-- The register names of R68, letter by letter. -/
def registerNames : List (List Char × RegName) :=
  [(['C', 'M', 'D'], .cmd), (['S', 'T', 'A', 'T', 'U', 'S'], .status), (['C', 'T', 'R', 'L'], .ctrl),
   (['E', 'I', 'N', 'F', 'O'], .einfo), (['S', 'R', 'C'], .operand .src), (['L', 'E', 'N'], .operand .len),
   (['D', 'S', 'T'], .operand .dst),
   (['M', 'A', 'J', 'O', 'R', '_', 'C', 'O', 'U', 'N', 'T'], .operand .majorCount),
   (['M', 'I', 'N', 'O', 'R', '_', 'C', 'O', 'U', 'N', 'T'], .operand .minorCount),
   (['M', 'A', 'J', 'O', 'R', '_', 'M', 'U', 'L', 'T'], .operand .majorMult),
   (['M', 'I', 'N', 'O', 'R', '_', 'I', 'N', 'C'], .operand .minorInc)]

/-- `<reg>`: a register name, a table word, or a bare window offset (R68). -/
def parseReg (w : List Char) : Option RegName :=
  match registerNames.find? (fun p => p.1 == w) with
  | some p => some p.2
  | none => (parseEntry w).or ((parseNumber w).map .bare)

/-- The statement or pseudo-instruction with a name and operands (R68, R69). -/
def parseStatement (op : List Char) (args : List (List Char)) : Option SourceLine :=
  if op = ['W', 'R'] then
    match args with
    | [r, v] => (parseReg r).bind fun r => (parseNumber v).map fun v => .basic (.wr r v)
    | _ => none
  else if op = ['R', 'D'] then
    match args with
    | [r] => (parseReg r).map fun r => .basic (.rd r)
    | _ => none
  else
    match args.mapM parseNumber with
    | none => none
    | some ns =>
      if op = ['I', 'N', 'I', 'T'] ∧ ns = [] then some (.basic (.command .init))
      else if op = ['E', 'D', 'C'] ∧ ns = [] then some (.basic (.command .edc))
      else if op = ['E', 'C', 'C'] ∧ ns = [] then some (.basic (.command .ecc))
      else if op = ['I', 'N', 'I', 'T', '_', 'T', 'A', 'B', 'L', 'E', 'S'] ∧ ns = [] then some (.pseudo .initTables)
      else if op = ['C', 'O', 'M', 'P', 'U', 'T', 'E', '_', 'E', 'D', 'C'] then
        match ns with
        | [a, b, c] => some (.pseudo (.computeEdc a b c))
        | _ => none
      else if op = ['C', 'O', 'M', 'P', 'U', 'T', 'E', '_', 'E', 'C', 'C'] then
        match ns with
        | [a, b, c, d, e, f] => some (.pseudo (.computeEcc a b c d e f))
        | _ => none
      else if op = ['S', 'E', 'T', '_', 'F', 'O', 'R', 'M', '2'] then
        match ns with
        | [v] => some (.pseudo (.setForm2 v))
        | _ => none
      else none

/-- A line that holds a statement: its first word names it, the operands follow. -/
def parseLine (l : List Char) : Option SourceLine :=
  let start := l.dropWhile isBlank
  (operandsOf (start.dropWhile fun c => !isBlank c)).bind (parseStatement (start.takeWhile fun c => !isBlank c))

/-- The lines of a text that hold a statement, each read; none if one of them cannot be (R68). -/
def parseProgram (text : List Char) : Option (List SourceLine) :=
  (((cutAt (· == '\n') text).map stripComment).filter fun l => wordsOf l != []).mapM parseLine

/-- A program's text to its encoding, the list of its transactions (R67, R68). -/
def assembleText (text : List Char) : Option (List Transaction) := (parseProgram text).bind assemble

end Sys2Proof.Machine
end

