-- ==== Sys2Proof/Safety.lean ====
section
/-! DEFINITION. The terms claims are stated in: the invariant of the machine, what a run gone wrong is, and readings of
the engines that do not follow the model's own loops (lists of bytes, the field GF, polynomials). -/

namespace Sys2Proof.Machine

/-- The tables INIT builds: "deterministic pure functions of the fixed polynomial constants" (10_state.md R14). -/
def builtTables : Tables := buildTables Tables.atReset

/-- What a fault can have recorded: the rows of 60_exceptions.md R132, cause code beside `EINFO`. -/
def faultRecord (cause : BitVec 4) (einfo : Word) : Prop :=
  (cause = 1#4 ∧ einfo ≠ 1#32 ∧ einfo ≠ 2#32 ∧ einfo ≠ 3#32)
  ∨ (cause = 2#4 ∧ (einfo = 2#32 ∨ einfo = 3#32
      ∨ (0x400 ≤ einfo.toNat ∧ einfo.toNat ≤ 0xFFC ∧ einfo.toNat % 4 = 0)))
  ∨ (cause = 3#4 ∧ einfo = 3#32)
  ∨ (cause = 4#4 ∧ (einfo = 2#32 ∨ einfo = 3#32))
  ∨ (cause = 5#4 ∧ einfo.toNat ≤ 0xFFF)

/-- The invariant: memory in canonical form; valid tables are the built ones (R14, R15); nothing recorded while
`ERR = 0`, and at `ERR = 1` a record of R132 (R23, R25); `pc` within the script (R22). -/
structure Inv (s : State) : Prop where
  memWf : s.mem.wf = true
  tablesBuilt : s.tv = true → s.tables = builtTables
  noRecord : s.err = false → s.cause = 0#4 ∧ s.einfo = 0#32
  record : s.err = true → faultRecord s.cause s.einfo
  pcInScript : s.pc ≤ s.program.length

/-- A run that has not gone wrong: "every claim about a correct run takes `ERR = 0` at its end as a conclusion and at
its start as a premise" (60_exceptions.md R141). -/
def Sound (s : State) : Prop := Inv s ∧ s.err = false

/-- The bytes of a range, in ascending address order (10_state.md R17). -/
def bytesAt (m : Memory) (a n : Nat) : List Byte := (List.range n).map fun k => m.read (a + k)

/-- The checksum of a list of bytes under R91, as a fold. -/
def edcOf (t : Tables) (bs : List Byte) : Word :=
  bs.foldl (fun acc b => (acc >>> 8) ^^^ t.edcTAt ((acc ^^^ b.setWidth 32).setWidth 8)) 0#32

/-- The address of sample k of a lane under a true modulo, `(start + k * minor_inc) mod size`
(10_state.md R20; 42_ecc_engine.md R104; 90_conflicts.md C2). -/
def EccArgs.sampleAddress (g : EccArgs) (major k : Nat) : Nat :=
  g.src + ((major / 2) * g.majorMult + major % 2 + k * g.minorInc) % (g.majorCount * g.minorCount)

/-- The samples of a lane in order. -/
def EccArgs.samples (g : EccArgs) (m : Memory) (major : Nat) : List Byte :=
  (List.range g.minorCount).map fun k => m.read (g.sampleAddress major k)

/-- The accumulators `a` and `b` after a list of samples (R103). -/
def laneSums (t : Tables) (ds : List Byte) : Byte × Byte :=
  ds.foldl (fun p d => (t.eccFAt (p.1 ^^^ d), p.2 ^^^ d)) (0#8, 0#8)

/-- The two parity bytes of a list of samples, `ECC_B[ECC_F[a] ^ b]` and that `^ b` (R105, R106). -/
def laneParity (t : Tables) (ds : List Byte) : Byte × Byte :=
  let p := laneSums t ds
  let q := t.eccBAt (t.eccFAt p.1 ^^^ p.2)
  (q, q ^^^ p.2)

/-- The source span and the destination of an ECC command have no byte in common (20_memory.md R49). -/
def EccArgs.disjoint (g : EccArgs) : Prop :=
  g.src + g.majorCount * g.minorCount ≤ g.dst ∨ g.dst + 2 * g.majorCount ≤ g.src

/-- Carry-less product of two bytes: polynomial multiplication over GF(2). -/
def polyMul (a b : Byte) : BitVec 16 :=
  (List.range 8).foldl (fun p k => if b.getLsbD k then p ^^^ (a.setWidth 16 <<< k) else p) 0#16

/-- Remainder modulo the polynomial with bit pattern 0x11D (40_table_builder.md R88). -/
def polyMod (p : BitVec 16) : Byte :=
  ((List.range 8).foldl
    (fun p k => if p.getLsbD (15 - k) then p ^^^ (0x11D#16 <<< (7 - k)) else p) p).setWidth 8

/-- Multiplication in the field GF of R88. -/
def gfMul (a b : Byte) : Byte := polyMod (polyMul a b)

/-- Value at 2 of the polynomial with coefficients `ds`, highest degree first, in GF: the second check sum of R112. -/
def gfAtTwo (ds : List Byte) : Byte := ds.foldl (fun v d => gfMul 2#8 v ^^^ d) 0#8

/-- XOR of a list of bytes: the first check sum of R112. -/
def xorAll (ds : List Byte) : Byte := ds.foldl (fun v d => v ^^^ d) 0#8

/-- The bits of a byte string, "first byte first, and within a byte bit 0 first" (41_edc_engine.md R98). -/
def messageBits (bs : List Byte) : List Bool := bs.flatMap fun b => (List.range 8).map fun k => b.getLsbD k

end Sys2Proof.Machine
end

