-- ==== Sys2Proof/Certificates/Slice0/Obligations.lean ====
section
/-! DEFINITION. The statements for the provers, each the formal text of an entry of OBLIGATIONS.json. -/

open Sys2Proof Sys2Proof.Machine

/-! ### Command words and the step -/

/-- Decoding a command's word gives the command back, and no two commands share a word (30_encoding.md section 3). -/
def Obligations.DecodeOfEncodeIsTheCommand : Prop :=
  ∀ i : Instr, decode (encode i) = .command i ∧ decodeTableWord 32 (encode i).toNat = some i
    ∧ ∀ j : Instr, encode i = encode j → i = j

/-- R63: a word selects a row when `w & mask = match`; the rows are INIT, EDC and ECC. -/
def Obligations.DecodeFollowsTheOpcodeMap : Prop :=
  ∀ w : Word,
    (decode w = .command .init ↔ w &&& 0xFFFFFFFF#32 = 0x00000001#32)
    ∧ (decode w = .command .edc ↔ w &&& 0xFFFFFFFF#32 = 0x00000002#32)
    ∧ (decode w = .command .ecc ↔ w &&& 0xFFFFFFFF#32 = 0x00000003#32)

/-- R64, R133: every other word is illegal, and writing it raises `E_ILLCMD` with the word in `EINFO` and does nothing
else. -/
def Obligations.EveryOtherWordIsIllegal : Prop :=
  ∀ w : Word, w ≠ 0x00000001#32 → w ≠ 0x00000002#32 → w ≠ 0x00000003#32 →
    decode w = .illegal w
    ∧ ∀ s : State, s.err = false →
        perform (.write 0x000#12 .word w) s = .next { s with err := true, cause := 1#4, einfo := w }

/-- Words written out from the opcode map and from the examples of 30_encoding.md R64. -/
def Obligations.WordsOfTheMapDecodeAsWritten : Prop :=
  decode 0b00000000000000000000000000000001#32 = .command .init
  ∧ decode 0b00000000000000000000000000000010#32 = .command .edc
  ∧ decode 0b00000000000000000000000000000011#32 = .command .ecc
  ∧ decode 0x00000000#32 = .illegal 0x00000000#32
  ∧ decode 0x00000004#32 = .illegal 0x00000004#32
  ∧ decode 0x00000103#32 = .illegal 0x00000103#32

/-- R120: a write of `CMD` at `ERR = 0` executes the command its word encodes, to completion, on the operands of that
moment; the step is `exec` of the decoded command and the script's advance. -/
def Obligations.StepExecutesTheCommandWritten : Prop :=
  ∀ (s : State) (w : Word), s.err = false →
    s.program[s.pc]? = some (.access (.write 0x000#12 .word w)) →
    (∀ i : Instr, decode w = .command i →
      (∀ t : State, exec i s = .next t → step s = .next { t with pc := t.pc + 1 })
      ∧ (∀ f : Fault, exec i s = .fault f → step s = .fault f))
    ∧ (w = 0x00000001#32 → decode w = .command .init)
    ∧ (w = 0x00000002#32 → decode w = .command .edc)
    ∧ (w = 0x00000003#32 → decode w = .command .ecc)
    ∧ (w ≠ 0x00000001#32 → w ≠ 0x00000002#32 → w ≠ 0x00000003#32 →
        step s = .next { s with err := true, cause := 1#4, einfo := w, pc := s.pc + 1 })

/-- The model's choice (log entry 4): a command placed by `withFetchWord` is what the next step runs, and placing it
changes the script alone. -/
def Obligations.PlacedCommandRunsNext : Prop :=
  ∀ (s : State) (nbits w : Nat) (i : Instr), s.err = false → decodeTableWord nbits w = some i →
    (∀ t : State, exec i (s.withFetchWord nbits w) = .next t →
        step (s.withFetchWord nbits w) = .next { t with pc := t.pc + 1 })
    ∧ (∀ f : Fault, exec i (s.withFetchWord nbits w) = .fault f → step (s.withFetchWord nbits w) = .fault f)
    ∧ s.withFetchWord nbits w
        = { s with program := (s.withFetchWord nbits w).program, pc := (s.withFetchWord nbits w).pc }

/-! ### INIT and the tables -/

/-- R80, R81, R82: at `TV = 0` INIT writes all 768 entries and sets `TV`, at `TV = 1` it does nothing; it cannot
fault, and its CMD write is ignored at `ERR = 1`. -/
def Obligations.InitBuildsTheTables : Prop :=
  ∀ s : State,
    (s.tv = true → exec .init s = .next s)
    ∧ (s.tv = false → ∃ tb : Tables, exec .init s = .next { s with tables := tb, tv := true }
        ∧ ∀ i : Byte, ∃ j : Byte,
            j.setWidth 9 = (i.setWidth 9 <<< 1) ^^^ (if i[7] then 0x11D#9 else 0#9)
            ∧ tb.eccFAt i = j
            ∧ tb.eccBAt (i ^^^ j) = i
            ∧ tb.edcTAt i = Nat.iterate
                (fun e : Word => if e[0] then (e >>> 1) ^^^ 0xD8018001#32 else e >>> 1) 8 (i.setWidth 32))
    ∧ (s.err = true → perform (.write 0x000#12 .word 0x00000001#32) s = .next s)

/-- R85: INIT run any number of times, from whatever the tables held, yields identical tables. -/
def Obligations.RepeatedInitYieldsIdenticalTables : Prop :=
  ∀ s u t v : State, s.tv = false → u.tv = false → exec .init s = .next t → exec .init u = .next v →
    t.tables = v.tables ∧ exec .init t = .next t

/-- R86: `ECC_B[ECC_F[i] ^ i] = i` for every i, while `ECC_B[ECC_F[i]] = i` only for 0. -/
def Obligations.BackwardTableInvertsForwardXorIndex : Prop :=
  ∀ s : State, Inv s → s.tv = true → ∀ i : Byte,
    s.tables.eccBAt (s.tables.eccFAt i ^^^ i) = i
    ∧ (s.tables.eccBAt (s.tables.eccFAt i) = i ↔ i = 0#8)

/-- The reading of 40_table_builder.md section 3 (its R88, marked derived): `ECC_F[i] = 2 * i`, `ECC_B[v] = v / 3` in
GF, and both are permutations. -/
def Obligations.ByteTablesMultiplyInTheField : Prop :=
  ∀ s : State, Inv s → s.tv = true → ∀ i : Byte,
    s.tables.eccFAt i = gfMul 2#8 i
    ∧ gfMul 3#8 (s.tables.eccBAt i) = i
    ∧ (∀ k : Byte, s.tables.eccFAt i = s.tables.eccFAt k → i = k)
    ∧ (∀ k : Byte, s.tables.eccBAt i = s.tables.eccBAt k → i = k)

/-- R87: every EDC entry is 8 rounds of the reduction of its index, and entry 0 is 0. -/
def Obligations.EdcTableIsEightRounds : Prop :=
  ∀ s : State, Inv s → s.tv = true →
    (∀ v : Byte, s.tables.edcTAt v = Nat.iterate
      (fun e : Word => if e[0] then (e >>> 1) ^^^ 0xD8018001#32 else e >>> 1) 8 (v.setWidth 32))
    ∧ s.tables.edcTAt 0#8 = 0#32

/-- Linearity of the EDC table (40_table_builder.md section 3, its R89, marked derived). -/
def Obligations.EdcTableIsLinear : Prop :=
  ∀ s : State, Inv s → s.tv = true →
    (∀ u v : Byte, s.tables.edcTAt (u ^^^ v) = s.tables.edcTAt u ^^^ s.tables.edcTAt v)
    ∧ s.tables.edcTAt 0x01#8 = 0x90910101#32 ∧ s.tables.edcTAt 0x80#8 = 0xD8018001#32

/-- R14: after INIT no step but reset changes a table entry, valid tables are always the same function of the
constants, and no event but INIT's CMD write and reset touches the tables at all. -/
def Obligations.TablesAreFixedOnceBuilt : Prop :=
  ∀ s t : State, step s = .next t →
    (s.tv = true → s.program[s.pc]? ≠ some .reset → t.tv = true ∧ t.tables = s.tables)
    ∧ (s.tv = false → t.tv = true → t.tables = builtTables)
    ∧ (t.tables ≠ s.tables → s.program[s.pc]? = some .reset
        ∨ s.program[s.pc]? = some (.access (.write 0x000#12 .word 0x00000001#32)))

/-- R15: `TV` is 0 after reset, is 1 once INIT has completed, becomes 1 in no other way, and goes back only by reset; and
while it is 0 what the tables hold has no effect on anything a step leaves but the tables themselves, and none at all
once `TV` is 1: the engines and the table windows fault instead. -/
def Obligations.UnbuiltTablesAreNeverObserved : Prop :=
  State.reset.tv = false
  ∧ (∀ s t : State, step s = .next t →
      (s.tv = true → t.tv = false → s.program[s.pc]? = some .reset)
      ∧ (s.program[s.pc]? = some .reset → t.tv = false)
      ∧ (s.tv = false → t.tv = true → s.err = false
          ∧ s.program[s.pc]? = some (.access (.write 0x000#12 .word 0x00000001#32))))
  ∧ (∀ (s t : State) (tb : Tables), s.tv = false → step s = .next t →
      ∃ u : State, step { s with tables := tb } = .next u
        ∧ u = { t with tables := u.tables } ∧ (t.tv = true → u = t))
  ∧ (∀ s : State, s.err = false → s.tv = false →
      (∃ t : State, exec .edc s = .next t ∧ t.err = true ∧ t.mem = s.mem)
      ∧ (∃ t : State, exec .ecc s = .next t ∧ t.err = true ∧ t.mem = s.mem)
      ∧ (∀ o : Offset, 0x400 ≤ o.toNat → o.toNat % 4 = 0 →
          ∃ t : State, perform (.read o .word) s = .next t ∧ t.err = true))
  ∧ (∀ s : State, ∃ t : State, exec .init s = .next t ∧ t.tv = true)

/-! ### EDC -/

/-- R90, R91, R92, R42: the EDC command. The checks come first and in order; then the accumulator runs over the source
bytes in ascending order and is stored as four bytes, least significant first, and in that order; nothing else
changes. -/
def Obligations.EdcFollowsItsPseudocode : Prop :=
  ∀ s : State,
    let src := s.x.src.toNat
    let len := s.x.len.toNat
    let dst := s.x.dst.toNat
    let acc : Word := (List.range len).foldl
      (fun acc k => (acc >>> 8) ^^^ s.tables.edcTAt ((acc ^^^ (s.mem.read (src + k)).setWidth 32).setWidth 8)) 0#32
    let admitted := (∀ k, k < len → s.platform.admits ⟨.read, src + k⟩ = true)
      ∧ (∀ k, k < 4 → s.platform.admits ⟨.write, dst + k⟩ = true)
    (s.err = false → s.tv = false → exec .edc s = .next { s with err := true, cause := 2#4, einfo := 2#32 })
    ∧ (s.err = false → s.tv = true → src + len > 2 ^ 32 ∨ dst + 4 > 2 ^ 32 →
        exec .edc s = .next { s with err := true, cause := 4#4, einfo := 2#32 })
    ∧ (s.mem.wf = true → s.tv = true → src + len ≤ 2 ^ 32 → dst + 4 ≤ 2 ^ 32 → admitted →
        ∃ m : Memory, exec .edc s = .next { s with mem := m } ∧ m.wf = true
          ∧ (∀ k, k < 4 → m.read (dst + k) = (acc >>> (8 * k)).setWidth 8)
          ∧ (∀ a, a < dst ∨ dst + 4 ≤ a → m.read a = s.mem.read a))
    ∧ (s.tv = true → src + len ≤ 2 ^ 32 → dst + 4 ≤ 2 ^ 32 → ¬ admitted → exec .edc s = .fault .stuck)
    ∧ s.x.edcArgs.accesses = (List.range len).map (fun k => Access.mk .read (src + k))
        ++ [⟨.write, dst⟩, ⟨.write, dst + 1⟩, ⟨.write, dst + 2⟩, ⟨.write, dst + 3⟩]

/-- R93: with `LEN = 0` there is no read whatever `SRC` is, and four zero bytes are written. -/
def Obligations.EdcOfNothingWritesFourZeroBytes : Prop :=
  ∀ s : State, s.mem.wf = true → s.tv = true → s.x.len = 0#32 → s.x.dst.toNat + 4 ≤ 2 ^ 32 →
    (∀ k, k < 4 → s.platform.admits ⟨.write, s.x.dst.toNat + k⟩ = true) →
    (∀ a ∈ s.x.edcArgs.accesses, a.kind = .write)
    ∧ ∃ m : Memory, exec .edc s = .next { s with mem := m }
      ∧ (∀ k, k < 4 → m.read (s.x.dst.toNat + k) = 0x00#8)
      ∧ (∀ a, a < s.x.dst.toNat ∨ s.x.dst.toNat + 4 ≤ a → m.read a = s.mem.read a)

/-- R94: a source range of zero bytes, of any length, yields four zero bytes. -/
def Obligations.EdcOfZeroBytesIsZero : Prop :=
  ∀ s : State, Inv s → s.tv = true → s.x.src.toNat + s.x.len.toNat ≤ 2 ^ 32 → s.x.dst.toNat + 4 ≤ 2 ^ 32 →
    s.platform.admitsAll s.x.edcArgs.accesses = true →
    (∀ k, k < s.x.len.toNat → s.mem.read (s.x.src.toNat + k) = 0x00#8) →
    ∃ m : Memory, exec .edc s = .next { s with mem := m }
      ∧ ∀ k, k < 4 → m.read (s.x.dst.toNat + k) = 0x00#8

/-- Leading zeros, linearity and single bytes (41_edc_engine.md section 3, its R95, marked derived). -/
def Obligations.EdcIsLinearAndIgnoresLeadingZeros : Prop :=
  (∀ (n : Nat) (bs : List Byte), edcOf builtTables (List.replicate n 0#8 ++ bs) = edcOf builtTables bs)
  ∧ (∀ bs cs : List Byte, bs.length = cs.length →
      edcOf builtTables (List.zipWith (fun b c => b ^^^ c) bs cs) = edcOf builtTables bs ^^^ edcOf builtTables cs)
  ∧ (∀ v : Byte, edcOf builtTables [v] = builtTables.edcTAt v)

/-- R96: the last bytes of the address space are usable as source and destination, `DST >= 0xFFFFFFFD` faults even
with nothing to read, and wherever the destination lies the checksum is of the source bytes as they were before. -/
def Obligations.EdcAtTheTopOfMemoryAndOverlapping : Prop :=
  ∀ s : State, s.tv = true →
    (s.err = false → s.x.dst.toNat ≥ 0xFFFFFFFD →
      exec .edc s = .next { s with err := true, cause := 4#4, einfo := 2#32 })
    ∧ (s.mem.wf = true → s.platform.refused = [] → s.x.src.toNat + s.x.len.toNat ≤ 2 ^ 32 →
        s.x.dst.toNat ≤ 0xFFFFFFFC →
        ∃ m : Memory, exec .edc s = .next { s with mem := m }
          ∧ ∀ k, k < 4 → m.read (s.x.dst.toNat + k)
              = (edcOf s.tables (bytesAt s.mem s.x.src.toNat s.x.len.toNat) >>> (8 * k)).setWidth 8)

/-- Purity (41_edc_engine.md section 3): the bytes EDC stores depend only on `EDC_T`, the operands it reads and the
`LEN` source bytes. -/
def Obligations.EdcResultDependsOnlyOnTableAndSource : Prop :=
  ∀ s u t v : State, s.mem.wf = true → u.mem.wf = true → s.err = false → u.err = false →
    s.tables.edcT = u.tables.edcT → s.x.edcArgs = u.x.edcArgs →
    (∀ k, k < s.x.len.toNat → s.mem.read (s.x.src.toNat + k) = u.mem.read (s.x.src.toNat + k)) →
    exec .edc s = .next t → exec .edc u = .next v → t.err = false → v.err = false →
    ∀ k, k < 4 → t.mem.read (s.x.dst.toNat + k) = v.mem.read (s.x.dst.toNat + k)

/-- What the checksum is (41_edc_engine.md section 3, its R98, marked derived): the bit-reversed remainder of
`M(x) * x^32` modulo `G(x)`, with M the message read first byte first, bit 0 first. -/
def Obligations.EdcIsTheRemainderModuloTheGenerator : Prop :=
  ∀ s : State, Inv s → s.tv = true → s.x.src.toNat + s.x.len.toNat ≤ 2 ^ 32 → s.x.dst.toNat + 4 ≤ 2 ^ 32 →
    s.platform.admitsAll s.x.edcArgs.accesses = true →
    let bits := messageBits (bytesAt s.mem s.x.src.toNat s.x.len.toNat)
    let message : Polynomial (ZMod 2) :=
      bits.foldl (fun p b => p * Polynomial.X + (if b then 1 else 0)) 0
    let generator : Polynomial (ZMod 2) :=
      Polynomial.X ^ 32 + Polynomial.X ^ 31 + Polynomial.X ^ 16 + Polynomial.X ^ 15 + Polynomial.X ^ 4
        + Polynomial.X ^ 3 + Polynomial.X + 1
    ∃ (m : Memory) (acc : Word), exec .edc s = .next { s with mem := m }
      ∧ (∀ k, k < 4 → m.read (s.x.dst.toNat + k) = (acc >>> (8 * k)).setWidth 8)
      ∧ (Finset.range 32).sum (fun k => if acc.getLsbD k then (Polynomial.X : Polynomial (ZMod 2)) ^ (31 - k) else 0)
          = (message * Polynomial.X ^ 32) %ₘ generator

/-! ### ECC -/

/-- R45, R100 to R103, R105, R106: the ECC command. The checks come first and in order; then lane after lane, each on
the memory the lane before left, samples `minor_count` bytes at `start + k * minor_inc` around the span, and writes
its two parity bytes; nothing else changes. -/
def Obligations.EccFollowsItsPseudocode : Prop :=
  ∀ s : State,
    let g := s.x.eccArgs
    let size := g.majorCount * g.minorCount
    let geometry := g.majorCount = 0 ∨ g.minorCount = 0
      ∨ (g.minorInc ≤ size ∧ ∀ major, major < g.majorCount → (major / 2) * g.majorMult + major % 2 < size)
    let inRange := g.src + size ≤ 2 ^ 32 ∧ g.dst + 2 * g.majorCount ≤ 2 ^ 32
    let admitted :=
      (∀ major k, major < g.majorCount → k < g.minorCount →
        s.platform.admits ⟨.read, g.sampleAddress major k⟩ = true)
      ∧ (∀ k, k < 2 * g.majorCount → s.platform.admits ⟨.write, g.dst + k⟩ = true)
    (s.err = false → s.tv = false → exec .ecc s = .next { s with err := true, cause := 2#4, einfo := 3#32 })
    ∧ (s.err = false → s.tv = true → ¬ geometry →
        exec .ecc s = .next { s with err := true, cause := 3#4, einfo := 3#32 })
    ∧ (s.err = false → s.tv = true → geometry → ¬ inRange →
        exec .ecc s = .next { s with err := true, cause := 4#4, einfo := 3#32 })
    ∧ (s.tv = true → geometry → inRange → admitted →
        ∃ ms : Nat → Memory, exec .ecc s = .next { s with mem := ms g.majorCount } ∧ ms 0 = s.mem
          ∧ ∀ major, major < g.majorCount →
              ms (major + 1)
                = ((ms major).write (g.dst + major) (laneParity s.tables (g.samples (ms major) major)).1).write
                    (g.dst + major + g.majorCount) (laneParity s.tables (g.samples (ms major) major)).2)
    ∧ (s.tv = true → geometry → inRange → ¬ admitted → exec .ecc s = .fault .stuck)

/-- The layout of the result (20_memory.md section 2): lane `major` leaves its byte `a` at `DST + major` and `a ^ b`
at `DST + major + MAJOR_COUNT`, here of the span as it was before the command, for a destination apart from the span;
every other byte is unchanged. -/
def Obligations.EccLeavesParityInTwoHalves : Prop :=
  ∀ s t : State, s.mem.wf = true → s.err = false → s.x.eccArgs.disjoint →
    exec .ecc s = .next t → t.err = false →
    (∀ major, major < s.x.eccArgs.majorCount →
      t.mem.read (s.x.eccArgs.dst + major)
          = (laneParity s.tables (s.x.eccArgs.samples s.mem major)).1
      ∧ t.mem.read (s.x.eccArgs.dst + major + s.x.eccArgs.majorCount)
          = (laneParity s.tables (s.x.eccArgs.samples s.mem major)).2)
    ∧ (∀ a, a < s.x.eccArgs.dst ∨ s.x.eccArgs.dst + 2 * s.x.eccArgs.majorCount ≤ a → t.mem.read a = s.mem.read a)

/-- Both check sums of every lane vanish (42_ecc_engine.md section 4, its R112, marked derived): the samples and the
two parity bytes XOR to 0, and weighted by falling powers of 2 in GF they sum to 0. -/
def Obligations.EccCheckSumsOfEveryLaneVanish : Prop :=
  ∀ s : State, Inv s → s.tv = true → s.x.eccArgs.geomOk = true → s.x.eccArgs.outOfRange = false →
    s.platform.admitsAll s.x.eccArgs.accesses = true → s.x.eccArgs.disjoint →
    ∃ m : Memory, exec .ecc s = .next { s with mem := m }
      ∧ ∀ major, major < s.x.eccArgs.majorCount →
          xorAll (s.x.eccArgs.samples m major
            ++ [m.read (s.x.eccArgs.dst + major), m.read (s.x.eccArgs.dst + major + s.x.eccArgs.majorCount)]) = 0#8
          ∧ gfAtTwo (s.x.eccArgs.samples m major
            ++ [m.read (s.x.eccArgs.dst + major), m.read (s.x.eccArgs.dst + major + s.x.eccArgs.majorCount)]) = 0#8

/-- R104: the wrap is one subtraction of `size` when the span is reached or passed; under an admitted geometry the
index stays in `[0, size)` before and after every advance, the wrap is then the true modulo, and no read of the
command leaves the span. -/
def Obligations.EccIndexNeverLeavesTheSpan : Prop :=
  ∀ g : EccArgs,
    (∀ i, i + g.minorInc < g.size → g.advanceIndex i = i + g.minorInc)
    ∧ (∀ i, g.size ≤ i + g.minorInc → g.advanceIndex i = i + g.minorInc - g.size)
    ∧ (g.geomOk = true → 0 < g.minorCount →
        (∀ major, major < g.majorCount → g.laneStart major < g.size)
        ∧ (∀ major i, major < g.majorCount → i < g.size →
            g.advanceIndex i < g.size ∧ g.advanceIndex i = (i + g.minorInc) % g.size))
    ∧ (g.geomOk = true → ∀ a ∈ g.accesses, a.kind = .read → g.src ≤ a.address ∧ a.address < g.src + g.size)

/-- R107: what the admission check accepts is exactly the quantified `GEOM_OK`, and a geometry that fails it raises
`E_GEOMETRY`. -/
def Obligations.GeometryCheckIsTheQuantifiedOne : Prop :=
  (∀ g : EccArgs, g.geomOk = true ↔
    (g.majorCount = 0 ∨ g.minorCount = 0
      ∨ (g.minorInc ≤ g.majorCount * g.minorCount
        ∧ ∀ major, major < g.majorCount →
            (major >>> 1) * g.majorMult + (major &&& 1) < g.majorCount * g.minorCount)))
  ∧ (∀ s : State, s.err = false → s.tv = true → s.x.eccArgs.geomOk = false →
      exec .ecc s = .next { s with err := true, cause := 3#4, einfo := 3#32 })

/-- R135: `E_GEOMETRY` is raised when both counts are at least 1 and either `minor_inc > size` or some lane starts at
or past `size`. -/
def Obligations.MismatchedGeometryFaults : Prop :=
  ∀ s : State, s.err = false → s.tv = true →
    1 ≤ s.x.majorCount.toNat → 1 ≤ s.x.minorCount.toNat →
    (s.x.minorInc.toNat > s.x.majorCount.toNat * s.x.minorCount.toNat
      ∨ ∃ major, major < s.x.majorCount.toNat
          ∧ (major / 2) * s.x.majorMult.toNat + major % 2 ≥ s.x.majorCount.toNat * s.x.minorCount.toNat) →
    exec .ecc s = .next { s with err := true, cause := 3#4, einfo := 3#32 }

/-- Degenerate geometries (42_ecc_engine.md section 3, R108 (a) to (e)). -/
def Obligations.DegenerateGeometriesAreComputed : Prop :=
  (∀ s : State, s.tv = true → s.x.majorCount = 0#32 → exec .ecc s = .next s ∧ s.x.eccArgs.accesses = [])
  ∧ (∀ s : State, Inv s → s.tv = true → s.x.minorCount = 0#32 →
      s.x.dst.toNat + 2 * s.x.majorCount.toNat ≤ 2 ^ 32 →
      (∀ k, k < 2 * s.x.majorCount.toNat → s.platform.admits ⟨.write, s.x.dst.toNat + k⟩ = true) →
      (∀ a ∈ s.x.eccArgs.accesses, a.kind = .write)
      ∧ ∃ m : Memory, exec .ecc s = .next { s with mem := m }
        ∧ (∀ k, k < 2 * s.x.majorCount.toNat → m.read (s.x.dst.toNat + k) = 0x00#8)
        ∧ (∀ a, a < s.x.dst.toNat ∨ s.x.dst.toNat + 2 * s.x.majorCount.toNat ≤ a → m.read a = s.mem.read a))
  ∧ (∀ g : EccArgs, g.geomOk = true → g.minorInc = 0 ∨ g.minorInc = g.size → ∀ major, major < g.majorCount →
      g.indices g.minorCount (g.laneStart major) = List.replicate g.minorCount (g.laneStart major))
  ∧ (∀ g : EccArgs, g.majorMult = 0 → ∀ major, g.laneStart major = major % 2)

/-- R111: ECC twice on the same operands leaves what ECC once leaves, for a destination apart from the span; and the
bytes it stores, wherever the destination lies, depend only on `ECC_F`, `ECC_B`, the six operands and the bytes of the
span. -/
def Obligations.EccIsDeterministicAndIdempotent : Prop :=
  (∀ s t : State, s.mem.wf = true → s.x.eccArgs.disjoint → exec .ecc s = .next t → exec .ecc t = .next t)
  ∧ (∀ s u t v : State, s.mem.wf = true → u.mem.wf = true → s.err = false → u.err = false →
      s.tables.eccF = u.tables.eccF → s.tables.eccB = u.tables.eccB → s.x.eccArgs = u.x.eccArgs →
      (∀ i, i < s.x.eccArgs.size → s.mem.read (s.x.eccArgs.src + i) = u.mem.read (s.x.eccArgs.src + i)) →
      exec .ecc s = .next t → exec .ecc u = .next v → t.err = false → v.err = false →
      ∀ k, k < 2 * s.x.eccArgs.majorCount →
        t.mem.read (s.x.eccArgs.dst + k) = v.mem.read (s.x.eccArgs.dst + k))

/-! ### Memory accesses, stopping, faults -/

/-- Counts and order of the accesses (20_memory.md sections 3 and 4, R46 and R48): EDC makes `LEN` reads in ascending
order and then 4 writes; ECC, under an admitted geometry, lane after lane the reads in sample order and the lane's
two writes; INIT makes none and is never stuck. -/
def Obligations.AccessesComeInTheStatedNumberAndOrder : Prop :=
  (∀ g : EdcArgs, g.accesses
      = (List.range g.len).map (fun k => Access.mk .read (g.src + k))
        ++ [⟨.write, g.dst⟩, ⟨.write, g.dst + 1⟩, ⟨.write, g.dst + 2⟩, ⟨.write, g.dst + 3⟩])
  ∧ (∀ g : EccArgs,
      (g.accesses.filter fun a => a.kind == .read).length = g.majorCount * g.minorCount
      ∧ (g.accesses.filter fun a => a.kind == .write).length = 2 * g.majorCount)
  ∧ (∀ g : EccArgs, g.geomOk = true → g.accesses
      = (List.range g.majorCount).flatMap fun major =>
          (List.range g.minorCount).map (fun k => Access.mk .read (g.sampleAddress major k))
            ++ [⟨.write, g.dst + major⟩, ⟨.write, g.dst + major + g.majorCount⟩])
  ∧ (∀ s : State, ∃ t : State, exec .init s = .next t ∧ t.mem = s.mem)

/-- R145: a command is stuck exactly when it has passed its checks and `MEM_ADMIT` is false for an address it would
read or write; the CMD write then has no step. -/
def Obligations.StuckExactlyWhenAnAccessIsNotAdmitted : Prop :=
  ∀ s : State,
    (exec .edc s = .fault .stuck ↔ s.tv = true ∧ s.x.edcArgs.outOfRange = false
      ∧ ∃ a ∈ s.x.edcArgs.accesses, s.platform.admits a = false)
    ∧ (exec .ecc s = .fault .stuck ↔ s.tv = true ∧ s.x.eccArgs.geomOk = true ∧ s.x.eccArgs.outOfRange = false
      ∧ ∃ a ∈ s.x.eccArgs.accesses, s.platform.admits a = false)
    ∧ (∀ f : Fault, step s = .fault f →
        s.program[s.pc]? = some (.access (.write 0x000#12 .word 0x00000002#32))
        ∨ s.program[s.pc]? = some (.access (.write 0x000#12 .word 0x00000003#32)))

/-- Outcomes of a step (00_scope.md section 5, R9; 70_reset_and_hazards.md section 4): under the default `MEM_ADMIT`
every command and every step answers a next state, and no step is ever refused. -/
def Obligations.EveryStepAnswersUnlessStuck : Prop :=
  (∀ s : State, s.platform.refused = [] → ∃ t : State, step s = .next t)
  ∧ (∀ (i : Instr) (s : State), s.platform.refused = [] → ∃ t : State, exec i s = .next t)
  ∧ (∀ (s : State) (r : Refusal), step s ≠ .refused r)

/-- Precision (60_exceptions.md section 5, its R140, marked derived): a command either faults having written nothing,
or runs to completion having raised nothing. -/
def Obligations.FaultsArePreciseAndTotal : Prop :=
  ∀ (i : Instr) (s t : State), s.err = false → exec i s = .next t →
    (t.err = true ∧ t = { s with err := true, cause := t.cause, einfo := t.einfo })
    ∨ (t.err = false ∧ t.cause = s.cause ∧ t.einfo = s.einfo)

/-- R131: the first fault sets `ERR`, `CAUSE` and `EINFO` and nothing else; at `ERR = 1` nothing changes. -/
def Obligations.RaiseLatchesTheFirstFault : Prop :=
  ∀ (info : Word) (s : State),
    (s.err = false →
      raise .illCmd info s = { s with err := true, cause := 1#4, einfo := info }
      ∧ raise .notInit info s = { s with err := true, cause := 2#4, einfo := info }
      ∧ raise .geometry info s = { s with err := true, cause := 3#4, einfo := info }
      ∧ raise .range info s = { s with err := true, cause := 4#4, einfo := info }
      ∧ raise .regAcc info s = { s with err := true, cause := 5#4, einfo := info })
    ∧ (s.err = true → ∀ c : Cause, raise c info s = s)

/-- R134: at `TV = 0` EDC, ECC and a read of any table window raise `E_NOTINIT`, whatever the operands hold. -/
def Obligations.NothingUsesTablesBeforeInit : Prop :=
  ∀ s : State, s.err = false → s.tv = false →
    exec .edc s = .next { s with err := true, cause := 2#4, einfo := 0x00000002#32 }
    ∧ exec .ecc s = .next { s with err := true, cause := 2#4, einfo := 0x00000003#32 }
    ∧ (∀ o : Offset, 0x400 ≤ o.toNat → o.toNat % 4 = 0 →
        ∃ (d : Word) (n : Nat), perform (.read o .word) s
          = .next { s with err := true, cause := 2#4, einfo := o.setWidth 32, readLog := d :: s.readLog,
                           freeCount := n })

/-- R136: a source or destination range past address 2^32 - 1 raises `E_RANGE`, for ECC after `E_GEOMETRY`; a range
that ends exactly at the last byte does not, and past the check every address accessed lies below 2^32. -/
def Obligations.RangesPastTheTopOfMemoryFault : Prop :=
  ∀ s : State, s.err = false → s.tv = true →
    ((s.x.src.toNat + s.x.len.toNat > 2 ^ 32 ∨ s.x.dst.toNat + 4 > 2 ^ 32) →
      exec .edc s = .next { s with err := true, cause := 4#4, einfo := 2#32 })
    ∧ (s.x.eccArgs.geomOk = true →
        (s.x.src.toNat + s.x.majorCount.toNat * s.x.minorCount.toNat > 2 ^ 32
          ∨ s.x.dst.toNat + 2 * s.x.majorCount.toNat > 2 ^ 32) →
        exec .ecc s = .next { s with err := true, cause := 4#4, einfo := 3#32 })
    ∧ (s.x.src.toNat + s.x.len.toNat ≤ 2 ^ 32 → s.x.dst.toNat + 4 ≤ 2 ^ 32 → ∀ t : State,
        exec .edc s = .next t → t.err = false)
    ∧ (s.x.eccArgs.geomOk = true → s.x.src.toNat + s.x.majorCount.toNat * s.x.minorCount.toNat ≤ 2 ^ 32 →
        s.x.dst.toNat + 2 * s.x.majorCount.toNat ≤ 2 ^ 32 → ∀ t : State, exec .ecc s = .next t → t.err = false)
    ∧ (s.x.eccArgs.geomOk = false → exec .ecc s = .next { s with err := true, cause := 3#4, einfo := 3#32 })
    ∧ (s.x.edcArgs.outOfRange = false → ∀ a ∈ s.x.edcArgs.accesses, a.address < 2 ^ 32)
    ∧ (s.x.eccArgs.geomOk = true → s.x.eccArgs.outOfRange = false →
        s.x.eccArgs.size ≤ 2 ^ 32 ∧ ∀ a ∈ s.x.eccArgs.accesses, a.address < 2 ^ 32)

/-- R141: the faulted state is final for the reset period, and reset, which also discards the tables, leaves it. -/
def Obligations.FaultedStateIsLeftOnlyByReset : Prop :=
  ∀ s t : State, s.err = true → step s = .next t →
    (s.program[s.pc]? ≠ some .reset → t.err = true ∧ t.cause = s.cause ∧ t.einfo = s.einfo ∧ t.tv = s.tv
      ∧ t.tables = s.tables ∧ t.x = s.x ∧ t.form2Edc = s.form2Edc)
    ∧ (s.program[s.pc]? = some .reset → t.err = false ∧ t.tv = false)

/-! ### Frames -/

/-- What a command leaves unchanged when it answers a next state (41_edc_engine.md section 1, 42_ecc_engine.md
section 1, 40_table_builder.md section 1): the operand registers, `FORM2_EDC` and everything outside the core; the
tables and `TV` but for INIT; the fault record but for a fault; every byte of memory but EDC's four from `DST` and
ECC's `2 * MAJOR_COUNT` from `DST`. -/
def Obligations.CommandsChangeNothingElse : Prop :=
  ∀ (i : Instr) (s t : State), exec i s = .next t →
    t.x = s.x ∧ t.form2Edc = s.form2Edc ∧ t.platform = s.platform ∧ t.program = s.program ∧ t.pc = s.pc
    ∧ t.readLog = s.readLog ∧ t.freeCount = s.freeCount
    ∧ (i ≠ .init → t.tables = s.tables ∧ t.tv = s.tv)
    ∧ (i = .init → t.mem = s.mem ∧ t.err = s.err)
    ∧ (t.err = s.err → t.cause = s.cause ∧ t.einfo = s.einfo)
    ∧ (i = .edc → ∀ a, a < s.x.dst.toNat ∨ s.x.dst.toNat + 4 ≤ a → t.mem.read a = s.mem.read a)
    ∧ (i = .ecc → ∀ a, a < s.x.dst.toNat ∨ s.x.dst.toNat + 2 * s.x.majorCount.toNat ≤ a →
        t.mem.read a = s.mem.read a)

/-- The operand registers (10_state.md section 3): commands read the operand registers and never write them; only the
host's write of a register, or reset, changes it. -/
def Obligations.OnlyTheHostWritesOperands : Prop :=
  (∀ (i : Instr) (s t : State), exec i s = .next t → ∀ r : OperandReg, t.x.get r = s.x.get r)
  ∧ (∀ (s t : State) (r : OperandReg), step s = .next t → t.x.get r ≠ s.x.get r →
      s.program[s.pc]? = some .reset
      ∨ (s.err = false ∧ s.program[s.pc]?
          = some (.access (.write (BitVec.ofNat 12 r.offset) .word (t.x.get r)))))

/-- The policy flag (10_state.md section 5): `FORM2_EDC` resets to 1 and no command's effect depends on it. -/
def Obligations.FormFlagHasNoEffectOnCommands : Prop :=
  State.reset.form2Edc = true
  ∧ ∀ (i : Instr) (s : State) (b : Bool),
      (∀ t : State, exec i s = .next t → exec i { s with form2Edc := b } = .next { t with form2Edc := b })
      ∧ (∀ f : Fault, exec i s = .fault f → exec i { s with form2Edc := b } = .fault f)

/-! ### Register transactions -/

/-- R117: an access that is not a whole aligned 32-bit one raises `E_REGACC` with the offset, and has no other effect;
a read of that kind returns some data. -/
def Obligations.OnlyWholeAlignedAccessesAreAccepted : Prop :=
  ∀ (s : State) (o : Offset) (w : Width) (v : Word), s.err = false → w ≠ .word ∨ o.toNat % 4 ≠ 0 →
    perform (.write o w v) s = .next { s with err := true, cause := 5#4, einfo := o.setWidth 32 }
    ∧ ∃ (d : Word) (n : Nat), perform (.read o w) s
        = .next { s with err := true, cause := 5#4, einfo := o.setWidth 32, readLog := d :: s.readLog,
                         freeCount := n }

/-- R118: a write of an operand register's offset sets that register, all 32 bits, and nothing else. -/
def Obligations.OperandWriteSetsOneRegister : Prop :=
  ∀ (s : State) (r : OperandReg) (v : Word), s.err = false →
    ∃ x : Operands, perform (.write (BitVec.ofNat 12 r.offset) .word v) s = .next { s with x := x }
      ∧ x.get r = v ∧ ∀ q : OperandReg, q ≠ r → x.get q = s.x.get q

/-- R119: a write of `CTRL` stores bit 0 and ignores the rest. -/
def Obligations.CtrlWriteStoresBitZero : Prop :=
  ∀ (s : State) (v : Word), s.err = false →
    perform (.write 0x008#12 .word v) s = .next { s with form2Edc := v.getLsbD 0 }

/-- R121: a write to `STATUS`, `EINFO`, a reserved offset or a table window raises `E_REGACC` and changes nothing
else. -/
def Obligations.ReadOnlyAndReservedOffsetsRefuseWrites : Prop :=
  ∀ (s : State) (o : Offset) (v : Word), s.err = false → o.toNat % 4 = 0 →
    o.toNat = 0x004 ∨ o.toNat = 0x00C ∨ 0x02C ≤ o.toNat →
    perform (.write o .word v) s = .next { s with err := true, cause := 5#4, einfo := o.setWidth 32 }

/-- R122: the registers read as the map says, with no change of state (`readLog` is where the model keeps the data
returned to the host, log entry 8). -/
def Obligations.RegisterReadsReturnTheirContents : Prop :=
  ∀ s : State,
    perform (.read 0x000#12 .word) s = .next { s with readLog := 0#32 :: s.readLog }
    ∧ perform (.read 0x004#12 .word) s
        = .next { s with readLog := ((BitVec.ofBool s.tv).setWidth 32 ||| ((BitVec.ofBool s.err).setWidth 32 <<< 1)
                    ||| (s.cause.setWidth 32 <<< 4)) :: s.readLog }
    ∧ perform (.read 0x008#12 .word) s
        = .next { s with readLog := (BitVec.ofBool s.form2Edc).setWidth 32 :: s.readLog }
    ∧ perform (.read 0x00C#12 .word) s = .next { s with readLog := s.einfo :: s.readLog }
    ∧ ∀ r : OperandReg,
        perform (.read (BitVec.ofNat 12 r.offset) .word) s = .next { s with readLog := s.x.get r :: s.readLog }

/-- R123: at `TV = 1` word i of a table window reads entry i, byte entries zero-extended; at `TV = 0` the read raises
`E_NOTINIT` and returns some data. -/
def Obligations.TableWindowsReadTheEntries : Prop :=
  ∀ (s : State) (i : Byte),
    (s.tv = true →
      perform (.read (BitVec.ofNat 12 (0x400 + 4 * i.toNat)) .word) s
          = .next { s with readLog := (s.tables.eccFAt i).setWidth 32 :: s.readLog }
      ∧ perform (.read (BitVec.ofNat 12 (0x800 + 4 * i.toNat)) .word) s
          = .next { s with readLog := (s.tables.eccBAt i).setWidth 32 :: s.readLog }
      ∧ perform (.read (BitVec.ofNat 12 (0xC00 + 4 * i.toNat)) .word) s
          = .next { s with readLog := s.tables.edcTAt i :: s.readLog })
    ∧ (s.tv = false → s.err = false → ∀ base, base = 0x400 ∨ base = 0x800 ∨ base = 0xC00 →
        ∃ (d : Word) (n : Nat), perform (.read (BitVec.ofNat 12 (base + 4 * i.toNat)) .word) s
          = .next { s with err := true, cause := 2#4, einfo := BitVec.ofNat 32 (base + 4 * i.toNat),
                           readLog := d :: s.readLog, freeCount := n })

/-- R124: while `ERR = 1` every write transaction, to any offset and of any width, is ignored. -/
def Obligations.WritesAfterAFaultAreIgnored : Prop :=
  ∀ s : State, s.err = true →
    (∀ (o : Offset) (w : Width) (v : Word), perform (.write o w v) s = .next s)
    ∧ (∀ (o : Offset) (w : Width) (v : Word), s.program[s.pc]? = some (.access (.write o w v)) →
        step s = .next { s with pc := s.pc + 1 })

/-- R125: while `ERR = 1` reads work, and one that would fault returns some data and changes nothing. -/
def Obligations.ReadsAfterAFaultKeepTheRecord : Prop :=
  ∀ s : State, s.err = true →
    (∀ (o : Offset) (w : Width), ∃ (d : Word) (n : Nat),
      perform (.read o w) s = .next { s with readLog := d :: s.readLog, freeCount := n })
    ∧ perform (.read 0x000#12 .word) s = .next { s with readLog := 0#32 :: s.readLog }
    ∧ perform (.read 0x004#12 .word) s = .next { s with readLog := statusWord s :: s.readLog }
    ∧ perform (.read 0x008#12 .word) s = .next { s with readLog := ctrlWord s :: s.readLog }
    ∧ perform (.read 0x00C#12 .word) s = .next { s with readLog := s.einfo :: s.readLog }
    ∧ (∀ r : OperandReg, perform (.read (BitVec.ofNat 12 r.offset) .word) s
        = .next { s with readLog := s.x.get r :: s.readLog })
    ∧ (s.tv = true → ∀ (n : TableName) (i : Byte),
        perform (.read (BitVec.ofNat 12 (RegName.entry n i.toNat).offset) .word) s
          = .next { s with readLog := s.tables.entryWord n i :: s.readLog })

/-- R126: a read of a reserved offset raises `E_REGACC` unless `ERR` is already 1, and returns some data. -/
def Obligations.ReservedOffsetsRefuseReads : Prop :=
  ∀ (s : State) (o : Offset), o.toNat % 4 = 0 → 0x02C ≤ o.toNat → o.toNat ≤ 0x3FC →
    ∃ (d : Word) (n : Nat),
      (s.err = false → perform (.read o .word) s
        = .next { s with err := true, cause := 5#4, einfo := o.setWidth 32, readLog := d :: s.readLog,
                         freeCount := n })
      ∧ (s.err = true → perform (.read o .word) s
        = .next { s with readLog := d :: s.readLog, freeCount := n })

/-- The register map decodes every named offset to its register, for every operand register and every table entry, and
the offsets 0x02C to 0x3FC to none (10_state.md section 5; 30_encoding.md section 7). -/
def Obligations.NamedOffsetsDecodeToTheirRegisters : Prop :=
  (∀ r : OperandReg, windowReg (BitVec.ofNat 12 (RegName.operand r).offset) = .operand r)
  ∧ (∀ (t : TableName) (i : Byte),
      windowReg (BitVec.ofNat 12 (RegName.entry t i.toNat).offset) = .entry t i
      ∧ (RegName.entry t i.toNat).offset % 4 = 0 ∧ (RegName.entry t i.toNat).offset ≤ 0xFFC)
  ∧ windowReg (BitVec.ofNat 12 RegName.cmd.offset) = .cmd
  ∧ windowReg (BitVec.ofNat 12 RegName.status.offset) = .status
  ∧ windowReg (BitVec.ofNat 12 RegName.ctrl.offset) = .ctrl
  ∧ windowReg (BitVec.ofNat 12 RegName.einfo.offset) = .einfo
  ∧ (∀ o : Offset, 0x02C ≤ o.toNat → o.toNat ≤ 0x3FC → windowReg o = .reserved)

/-- `STATUS` bit by bit: bit 0 `TV`, bit 1 `ERR`, bits[7:4] `CAUSE`, all others zero (10_state.md section 5). -/
def Obligations.StatusBitsAreTheFlags : Prop :=
  ∀ s : State,
    (statusWord s).getLsbD 0 = s.tv ∧ (statusWord s).getLsbD 1 = s.err
    ∧ (∀ k, k < 4 → (statusWord s).getLsbD (4 + k) = s.cause.getLsbD k)
    ∧ (∀ k, k = 2 ∨ k = 3 ∨ 8 ≤ k → (statusWord s).getLsbD k = false)

/-! ### Reset, the script, memory, programs -/

/-- R30: the values reset leaves, in `State.reset` and after a reset in the script (an event of the model's, log entry
3), which does not touch memory. The contents of the tables are not stated: they are unspecified. -/
def Obligations.ResetLeavesTheStatedValues : Prop :=
  (State.reset.tv = false ∧ State.reset.err = false ∧ State.reset.cause = 0#4 ∧ State.reset.einfo = 0#32
    ∧ State.reset.form2Edc = true ∧ ∀ r : OperandReg, State.reset.x.get r = 0#32)
  ∧ ∀ s : State, s.program[s.pc]? = some .reset →
      ∃ t : State, step s = .next t ∧ t.tv = false ∧ t.err = false ∧ t.cause = 0#4 ∧ t.einfo = 0#32
        ∧ t.form2Edc = true ∧ (∀ r : OperandReg, t.x.get r = 0#32) ∧ t.mem = s.mem

/-- The script (10_state.md section 4): an event that is done advances `pc` by exactly 1 and leaves the script as it
is; a stuck one has no next state; with `pc` at the end of the script the run is over and the state stays (the model's
choice, log entry 7). -/
def Obligations.ScriptAdvancesOneEventAStep : Prop :=
  ∀ s t : State, step s = .next t →
    t.program = s.program
    ∧ (s.pc < s.program.length → t.pc = s.pc + 1)
    ∧ (s.program.length ≤ s.pc → t = s)

/-- Byte accesses (20_memory.md section 1): a write sets one byte and changes nothing else, a read returns what is
there; and writes keep the canonical form (the model's choice, log entry 2). -/
def Obligations.MemoryReadsReturnTheLatestWrite : Prop :=
  ∀ (m : Memory) (a : Nat) (v : Byte), m.wf = true → a < 2 ^ 32 →
    (m.write a v).wf = true ∧ (m.write a v).read a = v ∧ ∀ b, b ≠ a → (m.write a v).read b = m.read b

/-- Memories in canonical form are the same data exactly when all 2^32 addresses read alike (the model's choice, log
entry 2); so a byte written back changes nothing, a second write to an address replaces the first, and writes to
different addresses commute. -/
def Obligations.EqualMemoriesAreEqualData : Prop :=
  ∀ m n : Memory, m.wf = true → n.wf = true →
    (m = n ↔ ∀ a, a < 2 ^ 32 → m.read a = n.read a)
    ∧ ∀ (a b : Nat) (v w : Byte), a < 2 ^ 32 → b < 2 ^ 32 →
        m.write a (m.read a) = m
        ∧ (m.write a v).write a w = m.write a w
        ∧ (a ≠ b → (m.write a v).write b w = (m.write b w).write a v)

/-- The host's own memory accesses in the script (20_memory.md section 6; the model's choice, log entry 3): a byte store
leaves the byte in memory and changes no other, a byte load returns the byte to the host (kept zero-extended in
`readLog`, log entry 8), and neither touches the core. -/
def Obligations.HostMemoryAccessesStoreAndReturnBytes : Prop :=
  ∀ (s : State) (a : Word) (v : Byte),
    (s.mem.wf = true → s.program[s.pc]? = some (.storeByte a v) →
      ∃ m : Memory, step s = .next { s with mem := m, pc := s.pc + 1 } ∧ m.read a.toNat = v
        ∧ ∀ b, b ≠ a.toNat → m.read b = s.mem.read b)
    ∧ (s.program[s.pc]? = some (.loadByte a) →
        step s = .next { s with readLog := (s.mem.read a.toNat).setWidth 32 :: s.readLog, pc := s.pc + 1 })

/-- R69: the expansions of the pseudo-instructions, as the transactions they stand for. -/
def Obligations.PseudoInstructionsExpandAsListed : Prop :=
  assemble [.pseudo .initTables] = some [.write 0x000#12 .word 0x00000001#32]
  ∧ (∀ a b c : Word, assemble [.pseudo (.computeEdc a.toNat b.toNat c.toNat)]
      = some [.write 0x010#12 .word a, .write 0x014#12 .word b, .write 0x018#12 .word c,
              .write 0x000#12 .word 0x00000002#32])
  ∧ (∀ a b c d e f : Word,
      assemble [.pseudo (.computeEcc a.toNat b.toNat c.toNat d.toNat e.toNat f.toNat)]
      = some [.write 0x010#12 .word a, .write 0x01C#12 .word b, .write 0x020#12 .word c,
              .write 0x024#12 .word d, .write 0x028#12 .word e, .write 0x018#12 .word f,
              .write 0x000#12 .word 0x00000003#32])
  ∧ (∀ v : Nat, v = 0 ∨ v = 1 →
      assemble [.pseudo (.setForm2 v)] = some [.write 0x008#12 .word (BitVec.ofNat 32 v)])

/-! ### The invariant -/

/-- The invariant holds at reset. -/
def Obligations.ResetStateMeetsInv : Prop := Inv State.reset

/-- Every step keeps the invariant: memory stays canonical, valid tables stay the built ones, the fault record stays
one of R132, `pc` stays in the script. -/
def Obligations.EveryStepKeepsInv : Prop :=
  ∀ s t : State, Inv s → step s = .next t → Inv t
end

