-- ==== Sys2Proof/Laws/State.lean ====
section
/-! SUPPORT. One lemma per field per named update of State, so that no later proof unfolds a record update. -/

namespace Sys2Proof.Machine

section raise
variable (c : Cause) (i : Word) (s : State)

@[simp] theorem raise_tables : (raise c i s).tables = s.tables := by unfold raise; split <;> rfl
@[simp] theorem raise_tv : (raise c i s).tv = s.tv := by unfold raise; split <;> rfl
@[simp] theorem raise_x : (raise c i s).x = s.x := by unfold raise; split <;> rfl
@[simp] theorem raise_form2Edc : (raise c i s).form2Edc = s.form2Edc := by unfold raise; split <;> rfl
@[simp] theorem raise_err : (raise c i s).err = true := by unfold raise; split <;> simp_all
@[simp] theorem raise_mem : (raise c i s).mem = s.mem := by unfold raise; split <;> rfl
@[simp] theorem raise_platform : (raise c i s).platform = s.platform := by unfold raise; split <;> rfl
@[simp] theorem raise_program : (raise c i s).program = s.program := by unfold raise; split <;> rfl
@[simp] theorem raise_pc : (raise c i s).pc = s.pc := by unfold raise; split <;> rfl
@[simp] theorem raise_readLog : (raise c i s).readLog = s.readLog := by unfold raise; split <;> rfl
@[simp] theorem raise_freeCount : (raise c i s).freeCount = s.freeCount := by unfold raise; split <;> rfl

/-- The first fault is recorded. -/
theorem raise_of_clear (h : s.err = false) :
    raise c i s = { s with err := true, cause := c.code, einfo := i } := by simp [raise, h]

/-- Later faults change nothing. -/
theorem raise_of_err (h : s.err = true) : raise c i s = s := by simp [raise, h]

end raise

section advance
variable (s : State)

@[simp] theorem advance_tables : (advance s).tables = s.tables := rfl
@[simp] theorem advance_tv : (advance s).tv = s.tv := rfl
@[simp] theorem advance_x : (advance s).x = s.x := rfl
@[simp] theorem advance_form2Edc : (advance s).form2Edc = s.form2Edc := rfl
@[simp] theorem advance_err : (advance s).err = s.err := rfl
@[simp] theorem advance_cause : (advance s).cause = s.cause := rfl
@[simp] theorem advance_einfo : (advance s).einfo = s.einfo := rfl
@[simp] theorem advance_mem : (advance s).mem = s.mem := rfl
@[simp] theorem advance_platform : (advance s).platform = s.platform := rfl
@[simp] theorem advance_program : (advance s).program = s.program := rfl
@[simp] theorem advance_pc : (advance s).pc = s.pc + 1 := rfl
@[simp] theorem advance_readLog : (advance s).readLog = s.readLog := rfl
@[simp] theorem advance_freeCount : (advance s).freeCount = s.freeCount := rfl

end advance

section returnData
variable (v : Word) (s : State)

@[simp] theorem returnData_tables : (returnData v s).tables = s.tables := rfl
@[simp] theorem returnData_tv : (returnData v s).tv = s.tv := rfl
@[simp] theorem returnData_x : (returnData v s).x = s.x := rfl
@[simp] theorem returnData_form2Edc : (returnData v s).form2Edc = s.form2Edc := rfl
@[simp] theorem returnData_err : (returnData v s).err = s.err := rfl
@[simp] theorem returnData_cause : (returnData v s).cause = s.cause := rfl
@[simp] theorem returnData_einfo : (returnData v s).einfo = s.einfo := rfl
@[simp] theorem returnData_mem : (returnData v s).mem = s.mem := rfl
@[simp] theorem returnData_platform : (returnData v s).platform = s.platform := rfl
@[simp] theorem returnData_program : (returnData v s).program = s.program := rfl
@[simp] theorem returnData_pc : (returnData v s).pc = s.pc := rfl
@[simp] theorem returnData_readLog : (returnData v s).readLog = v :: s.readLog := rfl
@[simp] theorem returnData_freeCount : (returnData v s).freeCount = s.freeCount := rfl

end returnData

section faultingRead
variable (c : Cause) (i : Word) (s : State)

@[simp] theorem faultingRead_tables : (faultingRead c i s).tables = s.tables := by simp [faultingRead]
@[simp] theorem faultingRead_tv : (faultingRead c i s).tv = s.tv := by simp [faultingRead]
@[simp] theorem faultingRead_x : (faultingRead c i s).x = s.x := by simp [faultingRead]
@[simp] theorem faultingRead_form2Edc : (faultingRead c i s).form2Edc = s.form2Edc := by simp [faultingRead]
@[simp] theorem faultingRead_err : (faultingRead c i s).err = true := by simp [faultingRead]
@[simp] theorem faultingRead_cause : (faultingRead c i s).cause = (raise c i s).cause := rfl
@[simp] theorem faultingRead_einfo : (faultingRead c i s).einfo = (raise c i s).einfo := rfl
@[simp] theorem faultingRead_mem : (faultingRead c i s).mem = s.mem := by simp [faultingRead]
@[simp] theorem faultingRead_platform : (faultingRead c i s).platform = s.platform := by simp [faultingRead]
@[simp] theorem faultingRead_program : (faultingRead c i s).program = s.program := by simp [faultingRead]
@[simp] theorem faultingRead_pc : (faultingRead c i s).pc = s.pc := by simp [faultingRead]
@[simp] theorem faultingRead_readLog :
    (faultingRead c i s).readLog = Config.freeRead s.freeCount :: s.readLog := rfl
@[simp] theorem faultingRead_freeCount : (faultingRead c i s).freeCount = s.freeCount + 1 := rfl

end faultingRead

section coreReset
variable (s : State)

@[simp] theorem coreReset_tables : (coreReset s).tables = State.reset.tables := rfl
@[simp] theorem coreReset_tv : (coreReset s).tv = false := rfl
@[simp] theorem coreReset_x : (coreReset s).x = State.reset.x := rfl
@[simp] theorem coreReset_form2Edc : (coreReset s).form2Edc = true := rfl
@[simp] theorem coreReset_err : (coreReset s).err = false := rfl
@[simp] theorem coreReset_cause : (coreReset s).cause = 0#4 := rfl
@[simp] theorem coreReset_einfo : (coreReset s).einfo = 0#32 := rfl
@[simp] theorem coreReset_mem : (coreReset s).mem = s.mem := rfl
@[simp] theorem coreReset_platform : (coreReset s).platform = s.platform := rfl
@[simp] theorem coreReset_program : (coreReset s).program = s.program := rfl
@[simp] theorem coreReset_pc : (coreReset s).pc = s.pc := rfl
@[simp] theorem coreReset_readLog : (coreReset s).readLog = s.readLog := rfl
@[simp] theorem coreReset_freeCount : (coreReset s).freeCount = s.freeCount := rfl

end coreReset

/-- Reading a register after a write of one. -/
theorem Operands.get_set (x : Operands) (r q : OperandReg) (v : Word) :
    (x.set r v).get q = if q = r then v else x.get q := by
  cases r <;> cases q <;> rfl

/-- The event inserted is the one the next step performs. -/
@[simp] theorem pending_insertEvent (e : HostEvent) (s : State) : (insertEvent e s).pending = some e := by
  simp only [State.pending, insertEvent]
  rw [List.getElem?_append_right (by simp)]
  simp

end Sys2Proof.Machine
end

