-- ==== Sys2Proof/Laws/Memory.lean ====
section
/-! SUPPORT. Memory: every operation keeps the canonical form, and what a read sees after a write. -/

namespace Sys2Proof.Machine.Memory

/-- An address below every entry reads as unlisted. -/
theorem read_of_wfFrom {m : Memory} {lo a : Nat} (h : wfFrom lo m = true) (ha : a < lo) : m.read a = unlisted := by
  induction m generalizing lo with
  | nil => rfl
  | cons c m ih =>
    obtain ⟨k, v⟩ := c
    simp only [wfFrom, Bool.and_eq_true, decide_eq_true_eq] at h
    obtain ⟨⟨⟨h1, _⟩, _⟩, h4⟩ := h
    simp only [read, if_neg (show ¬ k = a by omega)]
    exact ih h4 (by omega)

theorem wfFrom_mono {m : Memory} {lo lo' : Nat} (h : wfFrom lo m = true) (hl : lo' ≤ lo) : wfFrom lo' m = true := by
  cases m with
  | nil => rfl
  | cons c m =>
    obtain ⟨k, v⟩ := c
    simp only [wfFrom, Bool.and_eq_true, decide_eq_true_eq] at h ⊢
    exact ⟨⟨⟨by omega, h.1.1.2⟩, h.1.2⟩, h.2⟩

/-- A write elsewhere is not seen, in canonical form or not. -/
theorem read_write_ne (m : Memory) {a b : Nat} (v : Byte) (h : b ≠ a) : (m.write a v).read b = m.read b := by
  induction m with
  | nil =>
    simp only [write]
    split
    · rfl
    · simp [read, Ne.symm h]
  | cons c m ih =>
    obtain ⟨k, w⟩ := c
    simp only [write]
    split
    · split
      · rfl
      · simp [read, Ne.symm h]
    · split
      · rename_i hak
        subst hak
        split <;> simp [read, Ne.symm h]
      · simp only [read]
        split
        · rfl
        · exact ih

/-- A read after a write to the same place gives the value written. -/
theorem read_write_eq_from {m : Memory} {lo a : Nat} (v : Byte) (h : wfFrom lo m = true) : (m.write a v).read a = v := by
  induction m generalizing lo with
  | nil =>
    simp only [write]
    split
    · simp_all [read]
    · simp [read]
  | cons c m ih =>
    obtain ⟨k, w⟩ := c
    have h' := h
    simp only [wfFrom, Bool.and_eq_true, decide_eq_true_eq] at h'
    obtain ⟨⟨⟨h1, _⟩, _⟩, h4⟩ := h'
    simp only [write]
    split
    · rename_i hlt
      split
      · rename_i hv
        rw [hv]
        simp only [read, if_neg (show ¬ k = a by omega)]
        exact read_of_wfFrom h4 (by omega)
      · simp [read]
    · split
      · rename_i hak
        split
        · rename_i hv
          rw [hv]
          exact read_of_wfFrom h4 (by omega)
        · simp [read]
      · rename_i hak
        simp only [read, if_neg (show ¬ k = a by omega)]
        exact ih h4

theorem wfFrom_write {m : Memory} {lo a : Nat} (v : Byte) (h : wfFrom lo m = true) (hlo : lo ≤ a)
    (ha : a < Config.addressLimit) : wfFrom lo (m.write a v) = true := by
  induction m generalizing lo with
  | nil =>
    simp only [write]
    split
    · rfl
    · simp_all [wfFrom]
  | cons c m ih =>
    obtain ⟨k, w⟩ := c
    have h' := h
    simp only [wfFrom, Bool.and_eq_true, decide_eq_true_eq] at h'
    obtain ⟨⟨⟨h1, h2⟩, h3⟩, h4⟩ := h'
    simp only [write]
    split
    · rename_i hlt
      split
      · exact h
      · rename_i hv
        simp only [wfFrom, Bool.and_eq_true, decide_eq_true_eq]
        exact ⟨⟨⟨hlo, ha⟩, by simpa using hv⟩, ⟨⟨by omega, h2⟩, h3⟩, h4⟩
    · split
      · rename_i hak
        split
        · exact wfFrom_mono h4 (by omega)
        · rename_i hv
          simp only [wfFrom, Bool.and_eq_true, decide_eq_true_eq]
          exact ⟨⟨⟨hlo, ha⟩, by simpa using hv⟩, hak ▸ h4⟩
      · simp only [wfFrom, Bool.and_eq_true, decide_eq_true_eq]
        exact ⟨⟨⟨h1, h2⟩, h3⟩, ih h4 (by omega)⟩

/-- A write keeps the canonical form. -/
theorem wf_write {m : Memory} {a : Nat} (v : Byte) (h : m.wf = true) (ha : a < Config.addressLimit) :
    (m.write a v).wf = true := wfFrom_write v h (Nat.zero_le _) ha

/-- A read after a write to the same place gives the value written. -/
theorem read_write_eq {m : Memory} {a : Nat} (v : Byte) (h : m.wf = true) : (m.write a v).read a = v :=
  read_write_eq_from v h

/-- Reading any address after a write. -/
theorem read_write {m : Memory} {a b : Nat} (v : Byte) (h : m.wf = true) :
    (m.write a v).read b = if b = a then v else m.read b := by
  split
  · rename_i hb
    subst hb
    exact read_write_eq v h
  · rename_i hb
    exact read_write_ne m v hb

/-- In canonical form, memories that read alike everywhere are equal data. -/
theorem ext_from {m n : Memory} {lo : Nat} (hm : wfFrom lo m = true) (hn : wfFrom lo n = true)
    (h : ∀ a, m.read a = n.read a) : m = n := by
  induction m generalizing lo n with
  | nil =>
    cases n with
    | nil => rfl
    | cons c n =>
      obtain ⟨k, v⟩ := c
      simp only [wfFrom, Bool.and_eq_true, decide_eq_true_eq, bne_iff_ne] at hn
      exact absurd (h k).symm (by simpa [read] using hn.1.2)
  | cons c m ih =>
    obtain ⟨k, v⟩ := c
    simp only [wfFrom, Bool.and_eq_true, decide_eq_true_eq, bne_iff_ne] at hm
    cases n with
    | nil => exact absurd (h k) (by simpa [read] using hm.1.2)
    | cons d n =>
      obtain ⟨j, w⟩ := d
      simp only [wfFrom, Bool.and_eq_true, decide_eq_true_eq, bne_iff_ne] at hn
      have hkj : k = j := by
        rcases Nat.lt_trichotomy k j with hlt | heq | hgt
        · have := h k
          simp only [read, if_neg (show ¬ j = k by omega), if_true, read_of_wfFrom hn.2 (show k < j + 1 by omega)] at this
          exact absurd this hm.1.2
        · exact heq
        · have := h j
          simp only [read, if_neg (show ¬ k = j by omega), if_true, read_of_wfFrom hm.2 (show j < k + 1 by omega)] at this
          exact absurd this.symm hn.1.2
      subst hkj
      have hvw : v = w := by simpa [read] using h k
      subst hvw
      have : m = n := by
        refine ih hm.2 hn.2 fun a => ?_
        by_cases ha : k = a
        · subst ha
          rw [read_of_wfFrom hm.2 (Nat.lt_succ_self k), read_of_wfFrom hn.2 (Nat.lt_succ_self k)]
        · simpa [read, ha] using h a
      rw [this]

/-- In canonical form, memories that read alike everywhere are equal data. -/
theorem ext {m n : Memory} (hm : m.wf = true) (hn : n.wf = true) (h : ∀ a, m.read a = n.read a) : m = n :=
  ext_from hm hn h

theorem wf_writeWordLE {m : Memory} {a : Nat} (w : Word) (h : m.wf = true) (ha : a + 4 ≤ Config.addressLimit) :
    (m.writeWordLE a w).wf = true := by
  unfold writeWordLE
  exact wf_write _ (wf_write _ (wf_write _ (wf_write _ h (by omega)) (by omega)) (by omega)) (by omega)

/-- The four bytes of a stored word, least significant first. -/
theorem read_writeWordLE {m : Memory} {a k : Nat} (w : Word) (h : m.wf = true) (ha : a + 4 ≤ Config.addressLimit)
    (hk : k < 4) : (m.writeWordLE a w).read (a + k) = byteOf w k := by
  unfold writeWordLE
  have h0 := wf_write (byteOf w 0) h (show a < Config.addressLimit by omega)
  have h1 := wf_write (byteOf w 1) h0 (show a + 1 < Config.addressLimit by omega)
  have h2 := wf_write (byteOf w 2) h1 (show a + 2 < Config.addressLimit by omega)
  rw [read_write _ h2, read_write _ h1, read_write _ h0, read_write _ h]
  obtain rfl | rfl | rfl | rfl : k = 0 ∨ k = 1 ∨ k = 2 ∨ k = 3 := by omega
  all_goals simp

/-- A stored word changes no other byte. -/
theorem read_writeWordLE_ne (m : Memory) {a b : Nat} (w : Word) (h : b < a ∨ a + 4 ≤ b) :
    (m.writeWordLE a w).read b = m.read b := by
  unfold writeWordLE
  rw [read_write_ne _ _ (by omega), read_write_ne _ _ (by omega), read_write_ne _ _ (by omega),
    read_write_ne _ _ (by omega)]

end Sys2Proof.Machine.Memory
end

