-- ==== Sys2Proof/Laws/Tables.lean ====
section
/-! SUPPORT. The tables INIT builds: every entry is written, from its index alone (40_table_builder.md R84). -/

namespace Sys2Proof.Machine

/-- 1/3 in GF, `ECC_B[1]`: multiplying by it undoes `i -> i ^ ECC_F[i]` (R88). -/
def thirdOf (v : Byte) : Byte := gfMul 0xF4#8 v

/-- `i ^ j` of R81, the index INIT writes in `ECC_B`. -/
def eccKey (i : Byte) : Byte := i ^^^ eccForward i

set_option maxRecDepth 20000 in
theorem eccKey_thirdOf : ∀ v : Byte, eccKey (thirdOf v) = v := by decide

set_option maxRecDepth 20000 in
theorem thirdOf_eccKey : ∀ i : Byte, thirdOf (eccKey i) = i := by decide

/-- Bit 8 of `j` is 0: no truncation happens (R81). -/
theorem eccFeedback_fits : ∀ i : Byte, (eccForward i).setWidth 9 = eccFeedback i := by decide

set_option maxRecDepth 20000 in
/-- `ECC_F[i] = 2 * i` in GF (R88). -/
theorem eccForward_eq_gfMul : ∀ i : Byte, eccForward i = gfMul 2#8 i := by decide

set_option maxRecDepth 20000 in
/-- `ECC_B[v] = v / 3` in GF (R88). -/
theorem gfMul_three_thirdOf : ∀ v : Byte, gfMul 3#8 (thirdOf v) = v := by decide

/-- Doubling in GF is linear. -/
theorem eccForward_xor (u v : Byte) : eccForward (u ^^^ v) = eccForward u ^^^ eccForward v := by
  have hu : ∀ w : Byte, eccForward w = (w <<< 1) ^^^ (if w[7] then 0x1D#8 else 0#8) := by decide
  rw [hu, hu, hu]
  have hx : (u ^^^ v)[7] = (u[7] ^^ v[7]) := by simp
  have hs : (u ^^^ v) <<< 1 = (u <<< 1) ^^^ (v <<< 1) := BitVec.shiftLeft_xor_distrib u v 1
  rw [hx, hs]
  generalize u <<< 1 = p
  generalize v <<< 1 = q
  cases u[7] <;> cases v[7] <;> simp
  · ac_rfl
  · ac_rfl
  · rw [show p ^^^ 29#8 ^^^ (q ^^^ 29#8) = p ^^^ q ^^^ (29#8 ^^^ 29#8) by ac_rfl]
    simp

theorem edcRound_xor (u v : Word) : edcRound (u ^^^ v) = edcRound u ^^^ edcRound v := by
  unfold edcRound
  have hx : (u ^^^ v)[0] = (u[0] ^^ v[0]) := by simp
  have hs : (u ^^^ v) >>> 1 = (u >>> 1) ^^^ (v >>> 1) := BitVec.ushiftRight_xor_distrib u v 1
  rw [hx, hs]
  cases u[0] <;> cases v[0] <;> simp [BitVec.xor_assoc]
  ac_rfl

theorem edcRounds_xor (n : Nat) (u v : Word) : edcRounds n (u ^^^ v) = edcRounds n u ^^^ edcRounds n v := by
  induction n generalizing u v with
  | zero => rfl
  | succ n ih => simp only [edcRounds, edcRound_xor, ih]

/-- Linearity of the EDC table (R89). -/
theorem edcEntry_xor (u v : Byte) : edcEntry (u ^^^ v) = edcEntry u ^^^ edcEntry v := by
  unfold edcEntry
  rw [BitVec.setWidth_xor, edcRounds_xor]

theorem edcEntry_zero : edcEntry 0#8 = 0#32 := by decide

/-- An entry written by a fold of writes: some step writes index j, and all that do write the value c. -/
theorem getElem_foldl_set {α : Type} (key : Nat → Byte) (val : Nat → α) (j : Nat) (hj : j < 256) (c : α)
    (l : List Nat) (v : Table α)
    (hval : ∀ i ∈ l, (key i).toNat = j → val i = c)
    (h : v[j] = c ∨ ∃ i ∈ l, (key i).toNat = j) :
    (l.foldl (fun (v : Table α) i => v.set (key i).toNat (val i) (key i).isLt) v)[j] = c := by
  induction l generalizing v with
  | nil => simpa using h
  | cons i l ih =>
    simp only [List.foldl_cons]
    refine ih _ (fun k hk => hval k (List.mem_cons_of_mem _ hk)) ?_
    by_cases hi : (key i).toNat = j
    · left
      rw [Vector.getElem_set, if_pos hi]
      exact hval i List.mem_cons_self hi
    · rcases h with h | ⟨k, hk, hkj⟩
      · left
        rw [Vector.getElem_set, if_neg hi]
        exact h
      · rcases List.mem_cons.1 hk with rfl | hk
        · exact absurd hkj hi
        · exact Or.inr ⟨k, hk, hkj⟩

theorem foldl_buildEntry_eccF (l : List Nat) (t : Tables) :
    (l.foldl buildEntry t).eccF = l.foldl (fun (v : Table Byte) i =>
      v.set (BitVec.ofNat 8 i).toNat (eccForward (BitVec.ofNat 8 i)) (BitVec.ofNat 8 i).isLt) t.eccF := by
  induction l generalizing t with
  | nil => rfl
  | cons i l ih => simp only [List.foldl_cons, ih]; rfl

theorem foldl_buildEntry_eccB (l : List Nat) (t : Tables) :
    (l.foldl buildEntry t).eccB = l.foldl (fun (v : Table Byte) i =>
      v.set (eccKey (BitVec.ofNat 8 i)).toNat (BitVec.ofNat 8 i) (eccKey (BitVec.ofNat 8 i)).isLt) t.eccB := by
  induction l generalizing t with
  | nil => rfl
  | cons i l ih => simp only [List.foldl_cons, ih]; rfl

theorem foldl_buildEntry_edcT (l : List Nat) (t : Tables) :
    (l.foldl buildEntry t).edcT = l.foldl (fun (v : Table Word) i =>
      v.set (BitVec.ofNat 8 i).toNat (edcEntry (BitVec.ofNat 8 i)) (BitVec.ofNat 8 i).isLt) t.edcT := by
  induction l generalizing t with
  | nil => rfl
  | cons i l ih => simp only [List.foldl_cons, ih]; rfl

theorem ofNat_of_toNat_eq {i : Nat} {j : Byte} (h : (BitVec.ofNat 8 i).toNat = j.toNat) : BitVec.ofNat 8 i = j :=
  BitVec.eq_of_toNat_eq h

theorem mem_range_of_byte (j : Byte) : j.toNat ∈ List.range 256 := List.mem_range.2 j.isLt

theorem ofNat_toNat_byte (j : Byte) : BitVec.ofNat 8 j.toNat = j := by simp

/-- Entry i of the built `ECC_F`, whatever the tables held before (R81, R84). -/
theorem eccFAt_buildTables (t : Tables) (i : Byte) : (buildTables t).eccFAt i = eccForward i := by
  unfold Tables.eccFAt buildTables
  simp only [foldl_buildEntry_eccF]
  refine getElem_foldl_set (fun k => BitVec.ofNat 8 k) _ _ _ _ _ _ (fun k _ hk => ?_) (Or.inr ⟨i.toNat, ?_, ?_⟩)
  · rw [ofNat_of_toNat_eq hk]
  · exact mem_range_of_byte i
  · simp

/-- Entry v of the built `ECC_B`, whatever the tables held before (R81, R84). -/
theorem eccBAt_buildTables (t : Tables) (v : Byte) : (buildTables t).eccBAt v = thirdOf v := by
  unfold Tables.eccBAt buildTables
  simp only [foldl_buildEntry_eccB]
  refine getElem_foldl_set (fun k => eccKey (BitVec.ofNat 8 k)) _ _ _ _ _ _ (fun k _ hk => ?_)
    (Or.inr ⟨(thirdOf v).toNat, ?_, ?_⟩)
  · rw [← BitVec.eq_of_toNat_eq hk, thirdOf_eccKey]
  · exact mem_range_of_byte _
  · simp only [ofNat_toNat_byte, eccKey_thirdOf]

/-- Entry i of the built `EDC_T`, whatever the tables held before (R82, R84). -/
theorem edcTAt_buildTables (t : Tables) (i : Byte) : (buildTables t).edcTAt i = edcEntry i := by
  unfold Tables.edcTAt buildTables
  simp only [foldl_buildEntry_edcT]
  refine getElem_foldl_set (fun k => BitVec.ofNat 8 k) _ _ _ _ _ _ (fun k _ hk => ?_) (Or.inr ⟨i.toNat, ?_, ?_⟩)
  · rw [ofNat_of_toNat_eq hk]
  · exact mem_range_of_byte i
  · simp

/-- Tables are equal when their entries are. -/
theorem Tables.ext_entries {t u : Tables} (hf : ∀ i, t.eccFAt i = u.eccFAt i) (hb : ∀ i, t.eccBAt i = u.eccBAt i)
    (hc : ∀ i, t.edcTAt i = u.edcTAt i) : t = u := by
  obtain ⟨f, b, c⟩ := t
  obtain ⟨f', b', c'⟩ := u
  have key : ∀ {α : Type} (v w : Table α), (∀ i : Byte, v[i.toNat]'(i.isLt) = w[i.toNat]'(i.isLt)) → v = w := by
    intro α v w h
    refine Vector.ext fun i hi => ?_
    have := h (BitVec.ofNat 8 i)
    simpa [Nat.mod_eq_of_lt hi] using this
  simp only [Tables.mk.injEq]
  exact ⟨key _ _ hf, key _ _ hb, key _ _ hc⟩

/-- The build forgets what the tables held (R84). -/
theorem buildTables_eq_builtTables (t : Tables) : buildTables t = builtTables :=
  Tables.ext_entries (fun i => by rw [builtTables, eccFAt_buildTables, eccFAt_buildTables])
    (fun i => by rw [builtTables, eccBAt_buildTables, eccBAt_buildTables])
    (fun i => by rw [builtTables, edcTAt_buildTables, edcTAt_buildTables])

@[simp] theorem eccFAt_builtTables (i : Byte) : builtTables.eccFAt i = eccForward i := eccFAt_buildTables _ i
@[simp] theorem eccBAt_builtTables (i : Byte) : builtTables.eccBAt i = thirdOf i := eccBAt_buildTables _ i
@[simp] theorem edcTAt_builtTables (i : Byte) : builtTables.edcTAt i = edcEntry i := edcTAt_buildTables _ i

end Sys2Proof.Machine
end

