-- ==== Sys2Proof/Laws/Engines.lean ====
section
/-! SUPPORT. What the three commands can do: one inversion lemma each, and the small lemmas of the engines' loops. -/

namespace Sys2Proof.Machine

/-- `MEM_ADMIT` of a list of accesses is `MEM_ADMIT` of each. -/
theorem Platform.admitsAll_iff (p : Platform) (as : List Access) :
    p.admitsAll as = true ↔ ∀ a ∈ as, p.admits a = true := by
  unfold Platform.admitsAll
  cases h : p.refused with
  | nil => simp [Platform.admits, h]
  | cons r rs => simp

/-- Under the default `MEM_ADMIT` everything is admitted. -/
theorem Platform.admitsAll_of_default {p : Platform} (h : p.refused = []) (as : List Access) :
    p.admitsAll as = true := by simp [Platform.admitsAll, h]

/-! ### INIT -/

/-- INIT leaves the built tables and `TV = 1`, and nothing else changes. -/
theorem execInit_eq (s : State) :
    execInit s = .next (if s.tv then s else { s with tables := builtTables, tv := true }) := by
  simp only [execInit, buildTables_eq_builtTables]

/-! ### EDC -/

theorem bytesAt_succ (m : Memory) (a n : Nat) : bytesAt m a (n + 1) = m.read a :: bytesAt m (a + 1) n := by
  simp only [bytesAt, List.range_succ_eq_map, List.map_cons, List.map_map, Nat.add_zero]
  congr 1
  refine List.map_congr_left fun k _ => ?_
  show m.read (a + (k + 1)) = m.read (a + 1 + k)
  congr 1
  omega

theorem edcLoop_eq_foldl (t : Tables) (m : Memory) (n a : Nat) (acc : Word) :
    edcLoop t m n a acc = (bytesAt m a n).foldl (edcStep t) acc := by
  induction n generalizing a acc with
  | zero => rfl
  | succ n ih => rw [edcLoop, ih, bytesAt_succ, List.foldl_cons]

/-- The engine's loop is the fold of R91 over the bytes of the range. -/
theorem edcChecksum_eq_edcOf (t : Tables) (m : Memory) (g : EdcArgs) :
    edcChecksum t m g = edcOf t (bytesAt m g.src g.len) := edcLoop_eq_foldl t m g.len g.src 0#32

theorem EdcArgs.outOfRange_eq_false (g : EdcArgs) :
    g.outOfRange = false ↔ g.src + g.len ≤ Config.addressLimit ∧ g.dst + 4 ≤ Config.addressLimit := by
  simp [EdcArgs.outOfRange]

/-- Everything an EDC command can do. -/
theorem execEdc_next_cases {s t : State} (h : execEdc s = .next t) :
    (s.tv = false ∧ t = raise .notInit (encode .edc) s)
    ∨ (s.tv = true ∧ s.x.edcArgs.outOfRange = true ∧ t = raise .range (encode .edc) s)
    ∨ (s.tv = true ∧ s.x.edcArgs.outOfRange = false ∧ s.platform.admitsAll s.x.edcArgs.accesses = true
      ∧ t = { s with mem := s.mem.writeWordLE s.x.edcArgs.dst (edcChecksum s.tables s.mem s.x.edcArgs) }) := by
  unfold execEdc at h
  simp only at h
  split at h
  · exact .inl ⟨‹_›, (Host.Outcome.next.inj h).symm⟩
  · split at h
    · exact .inr (.inl ⟨by simpa using ‹¬ s.tv = false›, ‹_›, (Host.Outcome.next.inj h).symm⟩)
    · split at h
      · exact .inr (.inr ⟨by simpa using ‹¬ s.tv = false›, by simpa using ‹¬ _ = true›, ‹_›,
          (Host.Outcome.next.inj h).symm⟩)
      · exact absurd h (by simp)

/-! ### ECC -/

theorem EccArgs.outOfRange_eq_false (g : EccArgs) :
    g.outOfRange = false ↔ g.src + g.size ≤ Config.addressLimit ∧ g.dst + 2 * g.majorCount ≤ Config.addressLimit := by
  simp [EccArgs.outOfRange]

/-- Everything an ECC command can do. -/
theorem execEcc_next_cases {s t : State} (h : execEcc s = .next t) :
    (s.tv = false ∧ t = raise .notInit (encode .ecc) s)
    ∨ (s.tv = true ∧ s.x.eccArgs.geomOk = false ∧ t = raise .geometry (encode .ecc) s)
    ∨ (s.tv = true ∧ s.x.eccArgs.geomOk = true ∧ s.x.eccArgs.outOfRange = true
      ∧ t = raise .range (encode .ecc) s)
    ∨ (s.tv = true ∧ s.x.eccArgs.geomOk = true ∧ s.x.eccArgs.outOfRange = false
      ∧ s.platform.admitsAll s.x.eccArgs.accesses = true
      ∧ t = { s with mem := runLanes s.tables s.x.eccArgs s.x.eccArgs.majorCount 0 s.mem }) := by
  unfold execEcc at h
  simp only at h
  split at h
  · exact .inl ⟨‹_›, (Host.Outcome.next.inj h).symm⟩
  · split at h
    · exact .inr (.inl ⟨by simpa using ‹¬ s.tv = false›, ‹_›, (Host.Outcome.next.inj h).symm⟩)
    · split at h
      · exact .inr (.inr (.inl ⟨by simpa using ‹¬ s.tv = false›, by simpa using ‹¬ s.x.eccArgs.geomOk = false›, ‹_›,
          (Host.Outcome.next.inj h).symm⟩))
      · split at h
        · exact .inr (.inr (.inr ⟨by simpa using ‹¬ s.tv = false›, by simpa using ‹¬ s.x.eccArgs.geomOk = false›,
            by simpa using ‹¬ _ = true›, ‹_›, (Host.Outcome.next.inj h).symm⟩))
        · exact absurd h (by simp)

/-- A lane changes only its two destination bytes. -/
theorem read_runLane_ne (t : Tables) (g : EccArgs) (m : Memory) {major b : Nat} (h1 : b ≠ g.dst + major)
    (h2 : b ≠ g.dst + major + g.majorCount) : (runLane t g m major).read b = m.read b := by
  simp only [runLane]
  rw [Memory.read_write_ne _ _ h2, Memory.read_write_ne _ _ h1]

theorem wf_runLane (t : Tables) (g : EccArgs) {m : Memory} {major : Nat} (h : m.wf = true)
    (hb : g.dst + major + g.majorCount < Config.addressLimit) : (runLane t g m major).wf = true := by
  simp only [runLane]
  exact Memory.wf_write _ (Memory.wf_write _ h (by omega)) hb

/-- The lanes from `major` on keep the canonical form while their destinations lie in the address space. -/
theorem wf_runLanes (t : Tables) (g : EccArgs) (n : Nat) {major : Nat} {m : Memory} (h : m.wf = true)
    (hn : major + n ≤ g.majorCount) (hb : g.dst + 2 * g.majorCount ≤ Config.addressLimit) :
    (runLanes t g n major m).wf = true := by
  induction n generalizing major m with
  | zero => exact h
  | succ n ih => exact ih (wf_runLane t g h (by omega)) (by omega)

/-- The lanes change only bytes of the destination. -/
theorem read_runLanes_ne (t : Tables) (g : EccArgs) (n : Nat) {major b : Nat} (m : Memory)
    (hn : major + n ≤ g.majorCount) (hb : b < g.dst ∨ g.dst + 2 * g.majorCount ≤ b) :
    (runLanes t g n major m).read b = m.read b := by
  induction n generalizing major m with
  | zero => rfl
  | succ n ih =>
    rw [runLanes, ih _ (by omega)]
    exact read_runLane_ne t g m (by omega) (by omega)

/-! ### Any command -/

/-- A command that answers a next state keeps everything that is not the fault record, the tables with `TV`, or
memory. -/
theorem exec_next_keeps {i : Instr} {s t : State} (h : exec i s = .next t) :
    t.x = s.x ∧ t.form2Edc = s.form2Edc ∧ t.platform = s.platform ∧ t.program = s.program ∧ t.pc = s.pc
      ∧ t.readLog = s.readLog ∧ t.freeCount = s.freeCount := by
  cases i with
  | init =>
    rw [exec, execInit_eq, Host.Outcome.next.injEq] at h
    subst h
    split <;> simp
  | edc => rcases execEdc_next_cases h with ⟨_, rfl⟩ | ⟨_, _, rfl⟩ | ⟨_, _, _, rfl⟩ <;> simp
  | ecc => rcases execEcc_next_cases h with ⟨_, rfl⟩ | ⟨_, _, rfl⟩ | ⟨_, _, _, rfl⟩ | ⟨_, _, _, _, rfl⟩ <;> simp

/-- A command that stops is stuck. -/
theorem exec_fault {i : Instr} {s : State} {f : Fault} (_h : exec i s = .fault f) : f = .stuck := by cases f; rfl

end Sys2Proof.Machine
end

