-- ==== Sys2Proof/Laws/Script.lean ====
section
/-! SUPPORT. Decoding, transactions and the step: what each can do. -/

namespace Sys2Proof

/-- A command word is one of three. -/
theorem eq_encode_of_decode {w : Word} {i : Instr} (h : decode w = .command i) : w = encode i := by
  unfold decode at h
  split at h
  · rename_i hm
    have hw : w = (mbzField w ++ opcField w : BitVec (24 + 8)) := by
      refine BitVec.eq_of_getLsbD_eq fun k hk => ?_
      rw [BitVec.getLsbD_append, mbzField, opcField, BitVec.getLsbD_extractLsb', BitVec.getLsbD_extractLsb']
      split
      · simp_all
      · rw [show 8 + (k - 8) = k by omega]
        simp [show k - 8 < 24 by omega]
    rw [hm] at hw
    rw [hw]
    unfold decodeOpc at h
    split at h <;> rename_i hd
    · split at hd
      · rename_i ho
        simp only [Option.some.injEq] at hd
        simp only [Decoded.command.injEq] at h
        subst hd; subst h
        rw [ho]; rfl
      · split at hd
        · rename_i ho
          simp only [Option.some.injEq] at hd
          simp only [Decoded.command.injEq] at h
          subst hd; subst h
          rw [ho]; rfl
        · split at hd
          · rename_i ho
            simp only [Option.some.injEq] at hd
            simp only [Decoded.command.injEq] at h
            subst hd; subst h
            rw [ho]; rfl
          · exact absurd hd (by simp)
    · exact absurd h (by simp)
  · exact absurd h (by simp)

/-- A word turned away is handed on whole. -/
theorem eq_of_decode_illegal {w v : Word} (h : decode w = .illegal v) : v = w := by
  unfold decode at h
  split at h
  · split at h
    · exact absurd h (by simp)
    · simpa using h.symm
  · simpa using h.symm

end Sys2Proof

namespace Sys2Proof.Machine

/-- Everything a write of `CMD` can do. -/
theorem writeCmd_next_cases {w : Word} {s t : State} (h : writeCmd w s = .next t) :
    (∃ i, w = encode i ∧ exec i s = .next t)
    ∨ ((∀ i, decode w ≠ .command i) ∧ t = raise .illCmd w s) := by
  unfold writeCmd at h
  split at h
  · rename_i i hd
    exact .inl ⟨i, eq_encode_of_decode hd, h⟩
  · rename_i v hd
    rw [eq_of_decode_illegal hd] at h
    refine .inr ⟨fun i hi => ?_, (Host.Outcome.next.inj h).symm⟩
    rw [hd] at hi
    exact absurd hi (by simp)

/-- Everything a write transaction can do. -/
theorem perform_write_next_cases {o : Offset} {w : Width} {v : Word} {s t : State}
    (h : perform (.write o w v) s = .next t) :
    (s.err = true ∧ t = s)
    ∨ (s.err = false ∧ wholeAligned o w = true ∧ windowReg o = .cmd ∧ writeCmd v s = .next t)
    ∨ (s.err = false ∧ wholeAligned o w = true ∧ windowReg o = .ctrl ∧ t = { s with form2Edc := v[0] })
    ∨ (s.err = false ∧ wholeAligned o w = true ∧ (∃ r, windowReg o = .operand r ∧ t = { s with x := s.x.set r v }))
    ∨ (s.err = false ∧ t = raise .regAcc (offsetInfo o) s) := by
  unfold perform at h
  simp only at h
  split at h
  · exact .inl ⟨‹_›, (Host.Outcome.next.inj h).symm⟩
  · have he : s.err = false := by simpa using ‹¬ s.err = true›
    split at h
    · rename_i ha
      unfold writeReg at h
      split at h
      · exact .inr (.inl ⟨he, ha, ‹_›, h⟩)
      · exact .inr (.inr (.inl ⟨he, ha, ‹_›, (Host.Outcome.next.inj h).symm⟩))
      · exact .inr (.inr (.inr (.inl ⟨he, ha, _, ‹_›, (Host.Outcome.next.inj h).symm⟩)))
      all_goals exact .inr (.inr (.inr (.inr ⟨he, (Host.Outcome.next.inj h).symm⟩)))
    · exact .inr (.inr (.inr (.inr ⟨he, (Host.Outcome.next.inj h).symm⟩)))

/-- Everything a read transaction can do: data with no change of state, or a fault with unspecified data. -/
theorem perform_read_cases (o : Offset) (w : Width) (s : State) :
    (∃ v, perform (.read o w) s = .next (returnData v s))
    ∨ (s.tv = false ∧ windowReg o ≠ .reserved ∧ 0x400 ≤ o.toNat ∧ o.toNat % 4 = 0
      ∧ perform (.read o w) s = .next (faultingRead .notInit (offsetInfo o) s))
    ∨ perform (.read o w) s = .next (faultingRead .regAcc (offsetInfo o) s) := by
  unfold perform
  simp only
  split
  · rename_i ha
    unfold readReg
    split
    · exact .inl ⟨_, rfl⟩
    · exact .inl ⟨_, rfl⟩
    · exact .inl ⟨_, rfl⟩
    · exact .inl ⟨_, rfl⟩
    · exact .inl ⟨_, rfl⟩
    · rename_i n i hw
      split
      · exact .inl ⟨_, rfl⟩
      · refine .inr (.inl ⟨by simpa using ‹¬ s.tv = true›, by simp [hw], ?_, ?_, rfl⟩)
        · by_contra hlt
          rw [windowReg, if_pos (by omega)] at hw
          unfold controlReg at hw
          split at hw <;> exact absurd hw (by simp)
        · simp only [wholeAligned, Bool.and_eq_true, beq_iff_eq] at ha
          exact ha.2
    · exact .inr (.inr rfl)
  · exact .inr (.inr rfl)

/-- Everything a step can do when it answers a next state. -/
theorem step_next_cases {s t : State} (h : step s = .next t) :
    (s.pending = none ∧ t = s)
    ∨ ∃ e u, s.pending = some e ∧ runEvent e s = .next u ∧ t = advance u := by
  unfold step at h
  split at h
  · exact .inl ⟨‹_›, (Host.Outcome.next.inj h).symm⟩
  · rename_i e he
    unfold completed at h
    split at h
    · rename_i u hu
      exact .inr ⟨e, u, he, hu, (Host.Outcome.next.inj h).symm⟩
    · exact absurd h (by simp)
    · exact absurd h (by simp)

/-- An event whose effect is a next state completes. -/
theorem step_of_runEvent {s u : State} {e : HostEvent} (hp : s.pending = some e) (h : runEvent e s = .next u) :
    step s = .next (advance u) := by simp [step, hp, h, completed]

end Sys2Proof.Machine
end

