-- ==== Sys2Proof/Laws/PerInstr.lean ====
section
/-! SUPPORT. Statements for all commands, one lemma per constructor: the row of the opcode map (30_encoding.md R61, R63). -/

/-- A command's word has zero `MBZ` and a non-zero `OPC`, it is the pattern of exactly one row of the opcode table,
and that row names the command. -/
def Sys2Proof.Laws.OpcodeMap.Statement (i : Sys2Proof.Instr) : Prop :=
  i.wf = true
  ∧ Sys2Proof.mbzField (Sys2Proof.encode i) = 0#24
  ∧ Sys2Proof.opcField (Sys2Proof.encode i) ≠ 0#8
  ∧ (Sys2Proof.opcodeTable.filter fun r => r.selects (Sys2Proof.encode i)).map (fun r => r.instr) = [i]

theorem Sys2Proof.Laws.OpcodeMap.init : Sys2Proof.Laws.OpcodeMap.Statement .init :=
  ⟨by decide, by decide, by decide, by decide⟩

theorem Sys2Proof.Laws.OpcodeMap.edc : Sys2Proof.Laws.OpcodeMap.Statement .edc :=
  ⟨by decide, by decide, by decide, by decide⟩

theorem Sys2Proof.Laws.OpcodeMap.ecc : Sys2Proof.Laws.OpcodeMap.Statement .ecc :=
  ⟨by decide, by decide, by decide, by decide⟩
end

