-- ==== Sys2Proof/Tests/Slice0.lean ====
section
/-! SUPPORT. The model's own tests: words written out bit by bit, ill-formed terms, small steps whose expected values
are the spec's vectors (95_test_vectors.md), and for every statement a witness of its hypotheses. -/

set_option maxRecDepth 100000

namespace Sys2Proof.Tests

open Sys2Proof Sys2Proof.Machine

/-! ### Helpers -/

/-- The machine after INIT, with operands and memory as given. -/
def ready (x : Operands) (m : Memory) : State :=
  { State.reset with tables := builtTables, tv := true, x := x, mem := m }

/-- The machine after INIT with nothing else done. -/
def idle : State := ready Operands.atReset []

/-- Memory holding bytes from an address on. -/
def bytesFrom (a : Nat) (bs : List Byte) : Memory :=
  bs.zipIdx.foldl (fun m p => m.write (a + p.2) p.1) []

/-- The machine after INIT, before the EDC command on a source, a length and a destination. -/
def edcReady (src len dst : Word) (m : Memory) : State := ready { Operands.atReset with src, len, dst } m

/-- The machine after INIT, before the ECC command on a geometry. -/
def eccReady (src majorCount minorCount majorMult minorInc dst : Word) (m : Memory) : State :=
  ready { src, len := 0#32, dst, majorCount, minorCount, majorMult, minorInc } m

/-- The same machine on a platform that does not admit writes to one address. -/
def refusingWrite (a : Nat) (s : State) : State := { s with platform := ⟨[⟨.write, a, a⟩]⟩ }

/-- A machine that has recorded `E_NOTINIT` of an EDC command (95_test_vectors.md X4). -/
def faulted : State := { State.reset with err := true, cause := 2#4, einfo := 2#32 }

/-- A script with one event, which is next. -/
def scripted (e : HostEvent) (s : State) : State := { s with program := [e], pc := 0 }

/-- A script that writes a command word. -/
def commanded (w : Word) (s : State) : State := scripted (.access (.write 0x000#12 .word w)) s

def memoryOf : Host.Outcome State Fault Refusal → Option Memory
  | .next s => some s.mem
  | .fault _ => none
  | .refused _ => none

def readsOf : Host.Outcome State Fault Refusal → Option (List Word)
  | .next s => some s.readLog
  | .fault _ => none
  | .refused _ => none

/-- `STATUS` and `EINFO` after a step. -/
def recordOf : Host.Outcome State Fault Refusal → Option (Word × Word)
  | .next s => some (statusWord s, s.einfo)
  | .fault _ => none
  | .refused _ => none

theorem inv_ready (x : Operands) (m : Memory) (h : m.wf = true) : Inv (ready x m) where
  memWf := h
  tablesBuilt := fun _ => rfl
  noRecord := fun _ => ⟨rfl, rfl⟩
  record := fun h => absurd (h : false = true) Bool.false_ne_true
  pcInScript := Nat.le_refl 0

theorem inv_scripted (e : HostEvent) (s : State) (h : Inv s) : Inv (scripted e s) where
  memWf := h.memWf
  tablesBuilt := h.tablesBuilt
  noRecord := h.noRecord
  record := h.record
  pcInScript := Nat.zero_le _

/-! ### Decoding (30_encoding.md R61, R63, R64) -/

/-- `MBZ` = 24 zero bits, `OPC` = 0000 0001. -/
theorem test_decode_init : decode 0b00000000000000000000000000000001#32 = .command .init := by decide

/-- `MBZ` = 24 zero bits, `OPC` = 0000 0010. -/
theorem test_decode_edc : decode 0b00000000000000000000000000000010#32 = .command .edc := by decide

/-- `MBZ` = 24 zero bits, `OPC` = 0000 0011. -/
theorem test_decode_ecc : decode 0b00000000000000000000000000000011#32 = .command .ecc := by decide

/-- R64's own words: 0x00000000, 0x00000004 and 0x00000103 (`OPC` = 3, one `MBZ` bit set). -/
theorem test_decode_illegal : [0x00000000#32, 0x00000004#32, 0x00000103#32, 0x80000001#32].map decode
    = [.illegal 0x00000000#32, .illegal 0x00000004#32, .illegal 0x00000103#32, .illegal 0x80000001#32] := by decide

/-- The rows of opcode_table.json select the words of the map, one row each. -/
theorem test_opcode_table : opcodeTable.map (fun r => (decode r.pattern, opcodeTable.countP (·.selects r.pattern)))
    = [(.command .init, 1), (.command .edc, 1), (.command .ecc, 1)] := by decide

theorem test_decode_table_word : [1, 2, 3, 4, 0x103].map (decodeTableWord 32)
    = [some .init, some .edc, some .ecc, none, none] := by decide

/-- Offsets of 10_state.md section 5. -/
theorem test_window_offsets : [0x000#12, 0x00C#12, 0x028#12, 0x02C#12, 0x3FC#12, 0x400#12, 0x7FC#12, 0x800#12,
      0xFFC#12].map windowReg
    = [.cmd, .einfo, .operand .minorInc, .reserved, .reserved, .entry .eccF 0#8, .entry .eccF 255#8, .entry .eccB 0#8,
       .entry .edcT 255#8] := by decide

/-! ### WellFormed refuses ill-formed terms -/

theorem test_wf_commands : [Instr.init, .edc, .ecc].all Instr.wf = true := by decide

theorem test_wf_refuses_narrow_access : (Transaction.write 0x010#12 .half 0#32).wf = false
    ∧ (Transaction.read 0x010#12 .byte).wf = false ∧ (Transaction.read 0x010#12 .double).wf = false := by decide

theorem test_wf_refuses_misaligned_access : (Transaction.read 0x012#12 .word).wf = false := by decide

theorem test_wf_refuses_wide_number : fitsWord (2 ^ 32) = false ∧ (Statement.wr .ctrl (2 ^ 32)).wf = false := by decide

theorem test_wf_refuses_table_index : (RegName.entry .eccF 256).wf = false
    ∧ (Statement.rd (.entry .edcT 256)).wf = false := by decide

theorem test_wf_refuses_offset : (RegName.bare 4096).wf = false := by decide

theorem test_wf_refuses_pseudo : (Pseudo.setForm2 2).wf = false ∧ (Pseudo.computeEdc 0 (2 ^ 32) 0).wf = false
    ∧ (Pseudo.computeEcc 0 0 0 0 0 (2 ^ 32)).wf = false := by decide

theorem test_wf_refuses_line : (SourceLine.pseudo (.setForm2 2)).wf = false
    ∧ assemble [.basic (.command .init), .basic (.rd (.bare 4096))] = none := by decide

/-! ### Small steps: expected values from 95_test_vectors.md -/

/-- 40_table_builder.md R80, worked example: `STATUS` reads 1, and T3, T5d, T5h. -/
theorem test_init_worked_example :
    (match exec .init State.reset with
      | .next s => some (statusWord s, s.tables.eccFAt 0x80#8, s.tables.eccBAt 0x03#8, s.tables.edcTAt 0x80#8)
      | _ => none) = some (1#32, 0x1D#8, 0x01#8, 0xD8018001#32) := by decide +kernel

/-- X18: INIT after a fault is ignored. -/
theorem test_init_after_fault : recordOf (step (commanded 1#32 faulted)) = some (0x22#32, 2#32) := by decide

/-- E13, "123456789". -/
theorem test_edc_e13 :
    memoryOf (exec .edc (edcReady 0x1000#32 9#32 0x2000#32
      (bytesFrom 0x1000 [0x31, 0x32, 0x33, 0x34, 0x35, 0x36, 0x37, 0x38, 0x39])))
    = some (bytesFrom 0x1000 [0x31, 0x32, 0x33, 0x34, 0x35, 0x36, 0x37, 0x38, 0x39]
        ++ bytesFrom 0x2000 [0xC4, 0xED, 0xC2, 0x6E]) := by decide +kernel

/-- Edge of the address space: the source is read before it is overwritten. -/
theorem test_edc_top_of_memory :
    memoryOf (exec .edc (edcReady 0xFFFFFFFE#32 2#32 0xFFFFFFFC#32 (bytesFrom 0xFFFFFFFE [0x01, 0x02])))
    = some (bytesFrom 0xFFFFFFFC [0x01, 0x92, 0x20, 0x01]) := by decide +kernel

/-- Q8: diagonal lanes, 12 wraps. -/
theorem test_ecc_q8 :
    memoryOf (exec .ecc (eccReady 0x3000#32 4#32 5#32 10#32 12#32 0x3100#32
      (bytesFrom 0x3000 [1, 2, 3, 4, 5, 6, 7, 8, 9, 10, 11, 12, 13, 14, 15, 16, 17, 18, 19, 20])))
    = some (bytesFrom 0x3000 [1, 2, 3, 4, 5, 6, 7, 8, 9, 10, 11, 12, 13, 14, 15, 16, 17, 18, 19, 20]
        ++ bytesFrom 0x3100 [0xFB, 0x86, 0xF0, 0x91, 0xEA, 0x94, 0xE3, 0x95]) := by decide +kernel

/-- O2: a later lane reads the bytes an earlier lane wrote. -/
theorem test_ecc_o2 :
    memoryOf (exec .ecc (eccReady 0x1000#32 2#32 2#32 2#32 2#32 0x1001#32 (bytesFrom 0x1000 [1, 2, 3, 4])))
    = some (bytesFrom 0x1000 [0x01, 0x02, 0x0E, 0x00, 0x0C]) := by decide +kernel

/-- X8 and X9. -/
theorem test_edc_range_faults :
    [edcReady 0xFFFFFFFE#32 3#32 0#32 [], edcReady 0#32 0#32 0xFFFFFFFD#32 []].map
      (fun s => recordOf (step (commanded 2#32 s)))
    = [some (0x43#32, 2#32), some (0x43#32, 2#32)] := by decide

/-- X6, X7, X10, X11, X12 and X13. -/
theorem test_ecc_fault_order :
    [eccReady 0#32 4#32 1#32 4#32 1#32 0#32 [], eccReady 0#32 2#32 2#32 0#32 5#32 0#32 [],
     eccReady 0xFFFFFFF0#32 4#32 5#32 10#32 6#32 0#32 [], eccReady 0#32 4#32 5#32 10#32 6#32 0xFFFFFFFA#32 [],
     eccReady 0xFFFFFFFF#32 2#32 2#32 0#32 5#32 0#32 [],
     { eccReady 0#32 4#32 1#32 4#32 1#32 0#32 [] with tv := false }].map
      (fun s => recordOf (step (commanded 3#32 s)))
    = [some (0x33#32, 3#32), some (0x33#32, 3#32), some (0x43#32, 3#32), some (0x43#32, 3#32), some (0x33#32, 3#32),
       some (0x22#32, 3#32)] := by decide

/-- X1, X2, X14, X15, X16, X17 and X5 from reset. -/
theorem test_transaction_faults :
    [Transaction.write 0x000#12 .word 0#32, .write 0x000#12 .word 0x103#32, .write 0x004#12 .word 0#32,
     .read 0x02C#12 .word, .write 0x400#12 .word 5#32, .write 0x012#12 .half 0#32, .read 0xC04#12 .word].map
      (fun t => recordOf (perform t State.reset))
    = [some (0x12#32, 0#32), some (0x12#32, 0x103#32), some (0x52#32, 4#32), some (0x52#32, 0x2C#32),
       some (0x52#32, 0x400#32), some (0x52#32, 0x12#32), some (0x22#32, 0xC04#32)] := by decide

/-- T2, T4, T5e, T5j and A2. -/
theorem test_reads :
    [0xC04#12, 0xFFC#12, 0x7FC#12, 0xBFC#12, 0x008#12].map (fun o => readsOf (perform (.read o .word) idle))
    = [some [0x90910101#32], some [0x7070FF00#32], some [0xE3#32], some [0x55#32], some [1#32]] := by decide +kernel

/-- A6: only bit 0 of `CTRL` is stored. -/
theorem test_ctrl : (match perform (.write 0x008#12 .word 0xFFFFFFFE#32) State.reset with
    | .next s => some (ctrlWord s)
    | _ => none) = some 0#32 := by decide

/-- A script whose first event a reset is (70_reset_and_hazards.md R151). -/
theorem test_reset_clears_fault : recordOf (step (scripted .reset faulted)) = some (0#32, 0#32) := by decide

/-- A command the platform does not admit has no step (60_exceptions.md R145). -/
theorem test_stuck : (match step (commanded 2#32 (refusingWrite 0x2003 (edcReady 0#32 0#32 0x2000#32 []))) with
    | .fault .stuck => true
    | _ => false) = true := by decide

/-- A placed command is the first to run from reset. -/
theorem test_placed_init : (match step (State.reset.withFetchWord 32 1) with
    | .next s => some (s.tv, s.pc)
    | _ => none) = some (true, 1) := by decide

/-- No `<reg>` of R68: misplaced brackets, an open index, text after it; and operands without the comma between them. -/
theorem test_assemble_refuses :
    ["RD ECC_F]3[", "RD ECC_F[3[", "RD ECC_F[3", "RD ECC_F[3]]", "RD ECC_F[3]4", "RD ECC_F[]", "RD ECC_F[256]",
     "WR SRC 5", "WR SRC,, 5", "WR SRC, 5,", "WR, SRC, 5", "INIT ,"].all (fun t => assembleText t.toList == none)
    = true := by decide

/-- Text to transactions (30_encoding.md R68, R69). -/
theorem test_assemble_text :
    assembleText "SET_FORM2 0 ; WR CTRL, 0\nWR SRC, 0x1000\nRD EDC_T[255]\nEDC".toList
    = some [.write 0x008#12 .word 0#32, .write 0x010#12 .word 0x1000#32, .read 0xFFC#12 .word,
            .write 0x000#12 .word 2#32] := by decide

/-! ### Witnesses: for every statement with hypotheses, states and operands that meet them, clause by clause -/

/-- Operands whose ranges end exactly at the last byte of the address space: EDC, 2 bytes at 0xFFFFFFFE. -/
def edcTop : State := edcReady 0xFFFFFFFE#32 2#32 0xFFFFFFFC#32 (bytesFrom 0xFFFFFFFE [0x01, 0x02])

/-- ECC with a span of 20 bytes and a destination of 8 that end exactly at the last byte, apart from each other. -/
def eccTop : State := eccReady 0xFFFFFFE4#32 4#32 5#32 10#32 12#32 0xFFFFFFF8#32 []

/-- A reset machine whose unspecified tables hold something else. -/
def otherTables : State :=
  { State.reset with tables := ⟨Vector.replicate 256 1#8, Vector.replicate 256 2#8, Vector.replicate 256 3#32⟩ }

theorem inv_idle : Inv idle := inv_ready _ _ rfl

theorem inv_faulted : Inv faulted where
  memWf := rfl
  tablesBuilt := fun h => absurd (h : false = true) Bool.false_ne_true
  noRecord := fun h => absurd (h : true = false) (by decide)
  record := fun _ => .inr (.inl ⟨rfl, .inl rfl⟩)
  pcInScript := Nat.le_refl 0

theorem witness_DecodeOfEncodeIsTheCommand : encode .ecc = encode .ecc := rfl

theorem witness_EveryOtherWordIsIllegal : (0x00000000#32 ≠ 1#32 ∧ 0x00000000#32 ≠ 2#32 ∧ 0x00000000#32 ≠ 3#32)
    ∧ (0x00000004#32 ≠ 1#32 ∧ 0x00000004#32 ≠ 2#32 ∧ 0x00000004#32 ≠ 3#32) ∧ State.reset.err = false := by decide

theorem witness_StepExecutesTheCommandWritten :
    (∃ t, (commanded 1#32 State.reset).err = false
      ∧ (commanded 1#32 State.reset).program[(commanded 1#32 State.reset).pc]?
          = some (.access (.write 0x000#12 .word 1#32))
      ∧ decode 1#32 = .command .init ∧ exec .init (commanded 1#32 State.reset) = .next t)
    ∧ exec .edc (commanded 2#32 (refusingWrite 0xFFFFFFFF edcTop)) = .fault .stuck
    ∧ (commanded 4#32 State.reset).program[(commanded 4#32 State.reset).pc]?
        = some (.access (.write 0x000#12 .word 4#32)) :=
  ⟨⟨_, rfl, rfl, rfl, rfl⟩, rfl, rfl⟩

theorem witness_PlacedCommandRunsNext :
    (∃ t, State.reset.err = false ∧ decodeTableWord 32 2 = some .edc
      ∧ exec .edc (State.reset.withFetchWord 32 2) = .next t)
    ∧ exec .edc ((refusingWrite 0xFFFFFFFF edcTop).withFetchWord 32 2) = .fault .stuck :=
  ⟨⟨_, rfl, rfl, rfl⟩, rfl⟩

theorem witness_InitBuildsTheTables : idle.tv = true ∧ State.reset.tv = false ∧ faulted.err = true := by decide

theorem witness_RepeatedInitYieldsIdenticalTables : ∃ t v, State.reset.tv = false ∧ otherTables.tv = false
    ∧ exec .init State.reset = .next t ∧ exec .init otherTables = .next v := ⟨_, _, rfl, rfl, rfl, rfl⟩

theorem witness_BackwardTableInvertsForwardXorIndex : Inv idle ∧ idle.tv = true := ⟨inv_idle, rfl⟩

theorem witness_ByteTablesMultiplyInTheField : Inv idle ∧ idle.tv = true
    ∧ idle.tables.eccFAt 0xFF#8 = idle.tables.eccFAt 0xFF#8 := ⟨inv_idle, rfl, rfl⟩

theorem witness_EdcTableIsEightRounds : Inv edcTop ∧ edcTop.tv = true := ⟨inv_ready _ _ (by decide), rfl⟩

theorem witness_EdcTableIsLinear : Inv eccTop ∧ eccTop.tv = true := ⟨inv_ready _ _ rfl, rfl⟩

/-- A read at `TV = 1`; INIT, which sets `TV` and changes the tables. -/
theorem witness_TablesAreFixedOnceBuilt :
    (∃ t, step (scripted (.access (.read 0x004#12 .word)) idle) = .next t
      ∧ (scripted (.access (.read 0x004#12 .word)) idle).tv = true)
    ∧ (∃ t, step (commanded 1#32 State.reset) = .next t ∧ t.tv = true
      ∧ t.tables.eccFAt 1#8 ≠ (commanded 1#32 State.reset).tables.eccFAt 1#8) :=
  ⟨⟨_, rfl, rfl⟩, ⟨_, rfl, rfl, by decide⟩⟩

/-- A reset at `TV = 1`, and a faulting window read at `TV = 0` whatever the tables hold. -/
theorem witness_UnbuiltTablesAreNeverObserved :
    (∃ t, step (scripted .reset idle) = .next t ∧ idle.tv = true ∧ t.tv = false)
    ∧ (∃ t, step (commanded 1#32 otherTables) = .next t ∧ otherTables.tv = false ∧ t.tv = true)
    ∧ (otherTables.err = false ∧ 0x400 ≤ (0xFFC#12).toNat ∧ (0xFFC#12).toNat % 4 = 0) :=
  ⟨⟨_, rfl, rfl, rfl⟩, ⟨_, rfl, rfl, rfl⟩, by decide⟩

/-- Each clause at a boundary: reset; one byte past the top, in the source and in the destination; both ranges ending
at the top; the last byte of the destination not admitted. -/
theorem witness_EdcFollowsItsPseudocode :
    (State.reset.err = false ∧ State.reset.tv = false)
    ∧ (edcReady 0xFFFFFFFE#32 3#32 0#32 []).x.src.toNat + (edcReady 0xFFFFFFFE#32 3#32 0#32 []).x.len.toNat > 2 ^ 32
    ∧ (edcReady 0#32 0#32 0xFFFFFFFD#32 []).x.dst.toNat + 4 > 2 ^ 32
    ∧ (edcTop.mem.wf = true ∧ edcTop.tv = true ∧ edcTop.x.src.toNat + edcTop.x.len.toNat = 2 ^ 32
      ∧ edcTop.x.dst.toNat + 4 = 2 ^ 32
      ∧ (∀ k, k < edcTop.x.len.toNat → edcTop.platform.admits ⟨.read, edcTop.x.src.toNat + k⟩ = true)
      ∧ (∀ k, k < 4 → edcTop.platform.admits ⟨.write, edcTop.x.dst.toNat + k⟩ = true))
    ∧ ¬ (∀ k, k < 4 → (refusingWrite 0xFFFFFFFF edcTop).platform.admits ⟨.write, edcTop.x.dst.toNat + k⟩ = true) := by
  decide

theorem witness_EdcOfNothingWritesFourZeroBytes :
    let s := edcReady 0xFFFFFFFF#32 0#32 0xFFFFFFFC#32 []
    s.mem.wf = true ∧ s.tv = true ∧ s.x.len = 0#32 ∧ s.x.dst.toNat + 4 = 2 ^ 32
      ∧ ∀ k, k < 4 → s.platform.admits ⟨.write, s.x.dst.toNat + k⟩ = true := by decide

theorem witness_EdcOfZeroBytesIsZero :
    let s := edcReady 0xFFFFFFF0#32 16#32 0xFFFFFFFC#32 []
    Inv s ∧ s.tv = true ∧ s.x.src.toNat + s.x.len.toNat = 2 ^ 32 ∧ s.x.dst.toNat + 4 = 2 ^ 32
      ∧ s.platform.admitsAll s.x.edcArgs.accesses = true
      ∧ ∀ k, k < s.x.len.toNat → s.mem.read (s.x.src.toNat + k) = 0x00#8 :=
  ⟨inv_ready _ _ rfl, rfl, rfl, rfl, rfl, fun _ _ => rfl⟩

theorem witness_EdcIsLinearAndIgnoresLeadingZeros : [0x01#8, 0x80#8].length = [0x02#8, 0xFF#8].length := rfl

theorem witness_EdcAtTheTopOfMemoryAndOverlapping : (edcReady 0#32 0#32 0xFFFFFFFD#32 []).err = false
    ∧ (edcReady 0#32 0#32 0xFFFFFFFD#32 []).x.dst.toNat = 0xFFFFFFFD
    ∧ edcTop.tv = true ∧ edcTop.mem.wf = true ∧ edcTop.platform.refused = []
    ∧ edcTop.x.src.toNat + edcTop.x.len.toNat = 2 ^ 32 ∧ edcTop.x.dst.toNat = 0xFFFFFFFC := by decide

/-- Two machines that differ in a byte outside the source. -/
theorem witness_EdcResultDependsOnlyOnTableAndSource :
    let s := edcReady 0x1000#32 2#32 0x2000#32 (bytesFrom 0x1000 [1, 2])
    let u := edcReady 0x1000#32 2#32 0x2000#32 (bytesFrom 0x1000 [1, 2, 3])
    s.mem.wf = true ∧ u.mem.wf = true ∧ s.err = false ∧ u.err = false ∧ s.x.edcArgs = u.x.edcArgs
      ∧ (∀ k, k < s.x.len.toNat → s.mem.read (s.x.src.toNat + k) = u.mem.read (s.x.src.toNat + k))
      ∧ (∃ t, exec .edc s = .next t ∧ t.err = false) ∧ ∃ v, exec .edc u = .next v ∧ v.err = false :=
  ⟨by decide, by decide, rfl, rfl, rfl, by decide, ⟨_, rfl, rfl⟩, ⟨_, rfl, rfl⟩⟩

theorem witness_EdcIsTheRemainderModuloTheGenerator : Inv edcTop ∧ edcTop.tv = true
    ∧ edcTop.x.src.toNat + edcTop.x.len.toNat = 2 ^ 32 ∧ edcTop.x.dst.toNat + 4 = 2 ^ 32
    ∧ edcTop.platform.admitsAll edcTop.x.edcArgs.accesses = true :=
  ⟨inv_ready _ _ (by decide), rfl, rfl, rfl, rfl⟩

/-- Each clause at a boundary, in the statement's own quantified forms: reset; lane 2 starting at `size` and a step of
`size + 1`, each with counts that are not 0; a span and a destination one byte past the top; both ending at the top; a
destination byte not admitted. -/
theorem witness_EccFollowsItsPseudocode :
    let lane := (eccReady 0#32 4#32 1#32 4#32 1#32 0#32 []).x.eccArgs
    let inc := (eccReady 0#32 2#32 2#32 0#32 5#32 0#32 []).x.eccArgs
    let past := (eccReady 0xFFFFFFED#32 4#32 5#32 10#32 20#32 0xFFFFFFF9#32 []).x.eccArgs
    let g := eccTop.x.eccArgs
    (State.reset.err = false ∧ State.reset.tv = false)
    ∧ (¬ (lane.majorCount = 0 ∨ lane.minorCount = 0 ∨ (lane.minorInc ≤ lane.majorCount * lane.minorCount
        ∧ ∀ major, major < lane.majorCount →
            (major / 2) * lane.majorMult + major % 2 < lane.majorCount * lane.minorCount))
      ∧ (2 / 2) * lane.majorMult + 2 % 2 = lane.majorCount * lane.minorCount)
    ∧ (¬ (inc.majorCount = 0 ∨ inc.minorCount = 0 ∨ inc.minorInc ≤ inc.majorCount * inc.minorCount)
      ∧ inc.minorInc = inc.majorCount * inc.minorCount + 1)
    ∧ (past.minorInc ≤ past.majorCount * past.minorCount
      ∧ (∀ major, major < past.majorCount →
          (major / 2) * past.majorMult + major % 2 < past.majorCount * past.minorCount)
      ∧ past.src + past.majorCount * past.minorCount = 2 ^ 32 + 1 ∧ past.dst + 2 * past.majorCount = 2 ^ 32 + 1)
    ∧ (eccTop.err = false ∧ eccTop.tv = true ∧ g.minorInc ≤ g.majorCount * g.minorCount
      ∧ (∀ major, major < g.majorCount → (major / 2) * g.majorMult + major % 2 < g.majorCount * g.minorCount)
      ∧ g.src + g.majorCount * g.minorCount ≤ 2 ^ 32 ∧ g.dst + 2 * g.majorCount = 2 ^ 32
      ∧ (∀ major k, major < g.majorCount → k < g.minorCount →
          eccTop.platform.admits ⟨.read, g.sampleAddress major k⟩ = true)
      ∧ (∀ k, k < 2 * g.majorCount → eccTop.platform.admits ⟨.write, g.dst + k⟩ = true))
    ∧ ¬ (∀ k, k < 2 * g.majorCount →
        (refusingWrite 0xFFFFFFFF eccTop).platform.admits ⟨.write, g.dst + k⟩ = true) :=
  ⟨by decide, by decide, by decide, by decide,
    ⟨rfl, rfl, by decide, by decide, by decide, by decide, fun _ _ _ _ => rfl, fun _ _ => rfl⟩, by decide⟩

theorem witness_EccLeavesParityInTwoHalves : ∃ t, eccTop.mem.wf = true ∧ eccTop.err = false
    ∧ eccTop.x.eccArgs.src + 20 = eccTop.x.eccArgs.dst ∧ exec .ecc eccTop = .next t ∧ t.err = false :=
  ⟨_, rfl, rfl, rfl, rfl, rfl⟩

theorem witness_EccCheckSumsOfEveryLaneVanish : Inv eccTop ∧ eccTop.tv = true ∧ eccTop.x.eccArgs.geomOk = true
    ∧ eccTop.x.eccArgs.outOfRange = false ∧ eccTop.platform.admitsAll eccTop.x.eccArgs.accesses = true
    ∧ eccTop.x.eccArgs.disjoint :=
  ⟨inv_ready _ _ rfl, rfl, rfl, rfl, rfl, .inl (by decide)⟩

/-- One index that stays below the span, one that reaches it exactly, and an admitted geometry. -/
theorem witness_EccIndexNeverLeavesTheSpan :
    let g := eccTop.x.eccArgs
    7 + g.minorInc < g.size ∧ g.size = 8 + g.minorInc ∧ g.geomOk = true ∧ 0 < g.minorCount
      ∧ 3 < g.majorCount ∧ 19 < g.size ∧ Access.mk .read g.src ∈ g.accesses := by decide

theorem witness_GeometryCheckIsTheQuantifiedOne :
    let s := eccReady 0#32 4#32 1#32 4#32 1#32 0#32 []
    s.err = false ∧ s.tv = true ∧ s.x.eccArgs.geomOk = false := by decide

/-- Lane 2 starts exactly at `size` = 4; a step of exactly `size + 1` = 5. -/
theorem witness_MismatchedGeometryFaults :
    let s := eccReady 0#32 4#32 1#32 4#32 1#32 0#32 []
    let u := eccReady 0#32 2#32 2#32 0#32 5#32 0#32 []
    (s.err = false ∧ s.tv = true ∧ 1 ≤ s.x.majorCount.toNat ∧ 1 ≤ s.x.minorCount.toNat ∧ 2 < s.x.majorCount.toNat
      ∧ (2 / 2) * s.x.majorMult.toNat + 2 % 2 = s.x.majorCount.toNat * s.x.minorCount.toNat)
    ∧ u.x.minorInc.toNat = u.x.majorCount.toNat * u.x.minorCount.toNat + 1 := by decide

/-- P5's two commands, with the destination of the second at the top; Q12 and Q11. -/
theorem witness_DegenerateGeometriesAreComputed :
    let none := eccReady 0#32 0#32 5#32 1#32 1#32 0x0508#32 []
    let empty := eccReady 0#32 3#32 0#32 0#32 0#32 0xFFFFFFFA#32 []
    (none.tv = true ∧ none.x.majorCount = 0#32)
    ∧ (Inv empty ∧ empty.tv = true ∧ empty.x.minorCount = 0#32
      ∧ empty.x.dst.toNat + 2 * empty.x.majorCount.toNat = 2 ^ 32
      ∧ ∀ k, k < 2 * empty.x.majorCount.toNat → empty.platform.admits ⟨.write, empty.x.dst.toNat + k⟩ = true)
    ∧ (EccArgs.mk 0 0 2 3 2 0).geomOk = true ∧ (EccArgs.mk 0 0 1 2 0 2).geomOk = true
    ∧ (EccArgs.mk 0 0 1 2 0 2).minorInc = (EccArgs.mk 0 0 1 2 0 2).size :=
  ⟨⟨rfl, rfl⟩, ⟨inv_ready _ _ rfl, rfl, rfl, rfl, fun _ _ => rfl⟩, by decide, by decide, by decide⟩

/-- For the second part, spans that agree beside a byte outside that differs. -/
theorem witness_EccIsDeterministicAndIdempotent :
    let s := eccReady 0x1000#32 2#32 2#32 2#32 2#32 0x1001#32 (bytesFrom 0x1000 [1, 2, 3, 4])
    let u := eccReady 0x1000#32 2#32 2#32 2#32 2#32 0x1001#32 (bytesFrom 0x1000 [1, 2, 3, 4, 5])
    (∃ t, eccTop.mem.wf = true ∧ eccTop.x.eccArgs.disjoint ∧ exec .ecc eccTop = .next t)
    ∧ s.mem.wf = true ∧ u.mem.wf = true ∧ s.err = false ∧ u.err = false ∧ s.x.eccArgs = u.x.eccArgs
    ∧ (∀ i, i < s.x.eccArgs.size → s.mem.read (s.x.eccArgs.src + i) = u.mem.read (s.x.eccArgs.src + i))
    ∧ (∃ t, exec .ecc s = .next t ∧ t.err = false) ∧ ∃ v, exec .ecc u = .next v ∧ v.err = false :=
  ⟨⟨_, rfl, .inl (by decide), rfl⟩, by decide, by decide, rfl, rfl, rfl, by decide, ⟨_, rfl, rfl⟩, ⟨_, rfl, rfl⟩⟩

theorem witness_AccessesComeInTheStatedNumberAndOrder : (EccArgs.mk 0 0 4 5 10 20).geomOk = true := by decide

theorem witness_StuckExactlyWhenAnAccessIsNotAdmitted :
    step (commanded 2#32 (refusingWrite 0xFFFFFFFF edcTop)) = .fault .stuck
    ∧ step (commanded 3#32 (refusingWrite 0xFFFFFFFF eccTop)) = .fault .stuck := ⟨rfl, rfl⟩

theorem witness_EveryStepAnswersUnlessStuck : State.reset.platform.refused = [] := rfl

/-- A command that faults and one that completes. -/
theorem witness_FaultsArePreciseAndTotal :
    (∃ t, State.reset.err = false ∧ exec .edc State.reset = .next t ∧ t.err = true)
    ∧ ∃ t, edcTop.err = false ∧ exec .edc edcTop = .next t ∧ t.err = false := ⟨⟨_, rfl, rfl, rfl⟩, ⟨_, rfl, rfl, rfl⟩⟩

theorem witness_RaiseLatchesTheFirstFault : State.reset.err = false ∧ faulted.err = true := by decide

theorem witness_NothingUsesTablesBeforeInit : State.reset.err = false ∧ State.reset.tv = false
    ∧ (0x400 ≤ (0x400#12).toNat ∧ (0x400#12).toNat % 4 = 0)
    ∧ (0x400 ≤ (0xFFC#12).toNat ∧ (0xFFC#12).toNat % 4 = 0) := by decide

theorem witness_RangesPastTheTopOfMemoryFault :
    let e := edcReady 0xFFFFFFFE#32 3#32 0xFFFFFFFD#32 []
    let c := eccReady 0xFFFFFFED#32 4#32 5#32 10#32 20#32 0xFFFFFFF9#32 []
    (e.err = false ∧ e.tv = true ∧ e.x.src.toNat + e.x.len.toNat > 2 ^ 32 ∧ e.x.dst.toNat + 4 > 2 ^ 32)
    ∧ (c.x.eccArgs.geomOk = true ∧ c.x.src.toNat + c.x.majorCount.toNat * c.x.minorCount.toNat > 2 ^ 32
      ∧ c.x.dst.toNat + 2 * c.x.majorCount.toNat > 2 ^ 32)
    ∧ (edcTop.err = false ∧ edcTop.tv = true ∧ edcTop.x.src.toNat + edcTop.x.len.toNat ≤ 2 ^ 32
      ∧ edcTop.x.dst.toNat + 4 ≤ 2 ^ 32 ∧ ∃ t, exec .edc edcTop = .next t)
    ∧ (eccTop.x.eccArgs.geomOk = true ∧ eccTop.x.eccArgs.outOfRange = false
      ∧ eccTop.x.src.toNat + eccTop.x.majorCount.toNat * eccTop.x.minorCount.toNat ≤ 2 ^ 32
      ∧ eccTop.x.dst.toNat + 2 * eccTop.x.majorCount.toNat ≤ 2 ^ 32 ∧ ∃ t, exec .ecc eccTop = .next t)
    ∧ (eccReady 0xFFFFFFFF#32 2#32 2#32 0#32 5#32 0#32 []).x.eccArgs.geomOk = false :=
  ⟨by decide, by decide, ⟨rfl, rfl, by decide, by decide, _, rfl⟩, ⟨rfl, rfl, by decide, by decide, _, rfl⟩, rfl⟩

/-- An ignored write and a reset. -/
theorem witness_FaultedStateIsLeftOnlyByReset :
    (∃ t, (commanded 1#32 faulted).err = true ∧ step (commanded 1#32 faulted) = .next t)
    ∧ ∃ t, (scripted .reset faulted).err = true ∧ step (scripted .reset faulted) = .next t :=
  ⟨⟨_, rfl, rfl⟩, ⟨_, rfl, rfl⟩⟩

theorem witness_CommandsChangeNothingElse : (∃ t, exec .init State.reset = .next t ∧ t.err = State.reset.err)
    ∧ (∃ t, exec .edc edcTop = .next t ∧ t.err = edcTop.err) ∧ (∃ t, exec .ecc eccTop = .next t ∧ t.err = eccTop.err)
    ∧ 0xFFFFFFFB < edcTop.x.dst.toNat ∧ 0xFFFFFFF7 < eccTop.x.dst.toNat :=
  ⟨⟨_, rfl, rfl⟩, ⟨_, rfl, rfl⟩, ⟨_, rfl, rfl⟩, by decide, by decide⟩

/-- A command; a write of `MINOR_INC`; a reset. -/
theorem witness_OnlyTheHostWritesOperands : (∃ t, exec .ecc eccTop = .next t)
    ∧ (∃ t, step (scripted (.access (.write 0x028#12 .word 88#32)) idle) = .next t
      ∧ t.x.get .minorInc ≠ idle.x.get .minorInc)
    ∧ ∃ t, step (scripted .reset eccTop) = .next t ∧ t.x.get .src ≠ eccTop.x.get .src :=
  ⟨⟨_, rfl⟩, ⟨_, rfl, by decide⟩, ⟨_, rfl, by decide⟩⟩

theorem witness_FormFlagHasNoEffectOnCommands : (∃ t, exec .edc edcTop = .next t)
    ∧ exec .edc (refusingWrite 0xFFFFFFFF edcTop) = .fault .stuck := ⟨⟨_, rfl⟩, rfl⟩

theorem witness_OnlyWholeAlignedAccessesAreAccepted : State.reset.err = false
    ∧ (Width.half ≠ .word ∧ (0x010#12).toNat % 4 = 0) ∧ (0x012#12).toNat % 4 ≠ 0 := by decide

theorem witness_OperandWriteSetsOneRegister : State.reset.err = false ∧ OperandReg.src ≠ .minorInc := by decide

theorem witness_CtrlWriteStoresBitZero : State.reset.err = false := rfl

theorem witness_ReadOnlyAndReservedOffsetsRefuseWrites : State.reset.err = false
    ∧ [0x004#12, 0x00C#12, 0x02C#12, 0x3FC#12, 0x400#12, 0xFFC#12].all (fun o => o.toNat % 4 == 0 &&
        (o.toNat == 0x004 || o.toNat == 0x00C || decide (0x02C ≤ o.toNat))) = true := by decide

theorem witness_TableWindowsReadTheEntries : idle.tv = true ∧ State.reset.tv = false ∧ State.reset.err = false := by
  decide

theorem witness_WritesAfterAFaultAreIgnored : (commanded 1#32 faulted).err = true
    ∧ (commanded 1#32 faulted).program[(commanded 1#32 faulted).pc]? = some (.access (.write 0x000#12 .word 1#32)) := by
  decide

theorem witness_ReadsAfterAFaultKeepTheRecord : faulted.err = true
    ∧ ({ idle with err := true, cause := 1#4 }).err = true ∧ ({ idle with err := true, cause := 1#4 }).tv = true := by
  decide

theorem witness_ReservedOffsetsRefuseReads : (0x02C#12).toNat % 4 = 0 ∧ 0x02C ≤ (0x02C#12).toNat
    ∧ (0x3FC#12).toNat % 4 = 0 ∧ (0x3FC#12).toNat ≤ 0x3FC ∧ State.reset.err = false ∧ faulted.err = true := by decide

theorem witness_NamedOffsetsDecodeToTheirRegisters : 0x02C ≤ (0x02C#12).toNat ∧ (0x3FC#12).toNat ≤ 0x3FC := by decide

theorem witness_ResetLeavesTheStatedValues :
    (scripted .reset faulted).program[(scripted .reset faulted).pc]? = some .reset := rfl

/-- The event before the end of a script, and a script at its end. -/
theorem witness_ScriptAdvancesOneEventAStep :
    (∃ t, step (commanded 1#32 State.reset) = .next t
      ∧ (commanded 1#32 State.reset).pc < (commanded 1#32 State.reset).program.length)
    ∧ ∃ t, step State.reset = .next t ∧ State.reset.program.length ≤ State.reset.pc :=
  ⟨⟨_, rfl, by decide⟩, ⟨_, rfl, by decide⟩⟩

theorem witness_MemoryReadsReturnTheLatestWrite : Memory.wf (bytesFrom 0xFFFFFFFE [1, 2]) = true
    ∧ 0xFFFFFFFF < 2 ^ 32 := by decide

theorem witness_EqualMemoriesAreEqualData : Memory.wf (bytesFrom 0 [1, 0, 2]) = true
    ∧ Memory.wf (((Memory.write [] 2 2#8).write 0 1#8).write 1 0#8) = true
    ∧ bytesFrom 0 [1, 0, 2] = ((Memory.write [] 2 2#8).write 0 1#8).write 1 0#8
    ∧ 0xFFFFFFFF < 2 ^ 32 ∧ 0 ≠ 0xFFFFFFFF := by decide

theorem witness_HostMemoryAccessesStoreAndReturnBytes : State.reset.mem.wf = true
    ∧ (scripted (.storeByte 0xFFFFFFFF#32 1#8) State.reset).program[0]? = some (.storeByte 0xFFFFFFFF#32 1#8)
    ∧ (scripted (.loadByte 0xFFFFFFFF#32) State.reset).program[0]? = some (.loadByte 0xFFFFFFFF#32) := by decide

theorem witness_PseudoInstructionsExpandAsListed : (0 = 0 ∨ 0 = 1) ∧ (1 = 0 ∨ 1 = 1) := by decide

/-- A running machine, a faulted one and an idle one, each with its step. -/
theorem witness_EveryStepKeepsInv :
    (∃ t, Inv (commanded 3#32 eccTop) ∧ step (commanded 3#32 eccTop) = .next t)
    ∧ (∃ t, Inv faulted ∧ step faulted = .next t) ∧ ∃ t, Inv idle ∧ step idle = .next t :=
  ⟨⟨_, inv_scripted _ _ (inv_ready _ _ rfl), rfl⟩, ⟨_, inv_faulted, rfl⟩, ⟨_, inv_idle, rfl⟩⟩


end Sys2Proof.Tests
end

/-! PROOFS. Reset, the life of the tables and of `TV`, and why unbuilt tables have no effect (10_state.md R14, R15,
R30). -/

namespace Sys2Proof.Machine

/-! ### The idle step and reset -/

/-- At the end of the script the state stays. -/
theorem step_of_pending_none {s : State} (hp : s.pending = none) : step s = .next s := by simp [step, hp]

/-- A reset in the script always completes. -/
theorem step_of_pending_reset {s : State} (hp : s.pending = some .reset) :
    step s = .next (advance (coreReset s)) := step_of_runEvent hp rfl

theorem Operands.get_atReset (r : OperandReg) : Operands.atReset.get r = 0#32 := by cases r <;> rfl

/-- Settles O52: the reset event is `coreReset`, whose fields are those of `State.reset`. -/
theorem resetLeavesTheStatedValues : Obligations.ResetLeavesTheStatedValues := by
  refine ⟨⟨rfl, rfl, rfl, rfl, rfl, Operands.get_atReset⟩, fun s hp => ?_⟩
  exact ⟨_, step_of_pending_reset hp, rfl, rfl, rfl, rfl, rfl, Operands.get_atReset, rfl⟩

/-! ### The window's map -/

/-- `CMD` has one offset. -/
theorem eq_zero_of_windowReg_cmd {o : Offset} (h : windowReg o = .cmd) : o = 0#12 := by
  unfold windowReg at h
  split at h
  · unfold controlReg at h
    split at h
    · exact BitVec.eq_of_toNat_eq ‹o.toNat = 0x000›
    all_goals exact absurd h (by simp)
  · split at h
    · exact absurd h (by simp)
    · split at h <;> exact absurd h (by simp)

/-- From 0x400 on every word of the window is a table entry. -/
theorem exists_entry_of_windowReg {o : Offset} (h : 0x400 ≤ o.toNat) : ∃ n i, windowReg o = .entry n i := by
  rw [windowReg, if_neg (by omega)]
  split
  · exact ⟨_, _, rfl⟩
  · split <;> exact ⟨_, _, rfl⟩

theorem wholeAligned_iff (o : Offset) (w : Width) : wholeAligned o w = true ↔ w = .word ∧ o.toNat % 4 = 0 := by
  simp [wholeAligned]

/-! ### Who touches the tables and `TV` -/

/-- Tables and `TV` are as before. -/
def KeepsTables (s t : State) : Prop := t.tables = s.tables ∧ t.tv = s.tv

/-- `TV` goes from 0 to 1 with the built tables: what INIT does at `TV = 0`. -/
def BuildsTables (s t : State) : Prop := s.tv = false ∧ t.tables = builtTables ∧ t.tv = true

/-- A command keeps tables and `TV`, unless it is INIT at `TV = 0`. -/
theorem exec_next_tables {i : Instr} {s t : State} (h : exec i s = .next t) :
    KeepsTables s t ∨ (i = .init ∧ BuildsTables s t) := by
  cases i with
  | init =>
    rw [exec, execInit_eq, Host.Outcome.next.injEq] at h
    subst h
    cases htv : s.tv
    · exact .inr ⟨rfl, htv, by simp⟩
    · exact .inl (by simp [KeepsTables])
  | edc =>
    rcases execEdc_next_cases h with ⟨_, rfl⟩ | ⟨_, _, rfl⟩ | ⟨_, _, _, rfl⟩ <;> simp [KeepsTables]
  | ecc =>
    rcases execEcc_next_cases h with ⟨_, rfl⟩ | ⟨_, _, rfl⟩ | ⟨_, _, _, rfl⟩ | ⟨_, _, _, _, rfl⟩ <;>
      simp [KeepsTables]

theorem writeCmd_next_tables {v : Word} {s t : State} (h : writeCmd v s = .next t) :
    KeepsTables s t ∨ (v = encode .init ∧ BuildsTables s t) := by
  rcases writeCmd_next_cases h with ⟨i, rfl, hi⟩ | ⟨_, rfl⟩
  · rcases exec_next_tables hi with hk | ⟨rfl, hb⟩
    · exact .inl hk
    · exact .inr ⟨rfl, hb⟩
  · exact .inl ⟨raise_tables .., raise_tv ..⟩

/-- A transaction keeps tables and `TV`, unless it is the accepted `CMD` write of INIT at `TV = 0`. -/
theorem perform_next_tables {a : Transaction} {s t : State} (h : perform a s = .next t) :
    KeepsTables s t ∨ (a = .write 0x000#12 .word (encode .init) ∧ s.err = false ∧ BuildsTables s t) := by
  cases a with
  | write o w v =>
    rcases perform_write_next_cases h with
      ⟨_, rfl⟩ | ⟨he, ha, hcmd, hw⟩ | ⟨_, _, _, rfl⟩ | ⟨_, _, r, _, rfl⟩ | ⟨_, rfl⟩
    case inr.inl =>
      obtain ⟨rfl, -⟩ := (wholeAligned_iff o w).1 ha
      obtain rfl := eq_zero_of_windowReg_cmd hcmd
      rcases writeCmd_next_tables hw with hk | ⟨rfl, hb⟩
      · exact .inl hk
      · exact .inr ⟨rfl, he, hb⟩
    all_goals exact .inl (by simp [KeepsTables])
  | read o w =>
    rcases perform_read_cases o w s with ⟨v, hr⟩ | ⟨_, _, _, _, hr⟩ | hr
    all_goals
      obtain rfl := Host.Outcome.next.inj (hr.symm.trans h)
      exact .inl (by simp [KeepsTables])

/-- A step keeps tables and `TV`, is a reset, or is the accepted `CMD` write of INIT at `TV = 0`. -/
theorem step_next_tables {s t : State} (h : step s = .next t) :
    KeepsTables s t
    ∨ (s.pending = some .reset ∧ t.tv = false)
    ∨ (s.pending = some (cmdWrite (encode .init)) ∧ s.err = false ∧ BuildsTables s t) := by
  rcases step_next_cases h with ⟨_, rfl⟩ | ⟨e, u, hp, hu, rfl⟩
  · exact .inl ⟨rfl, rfl⟩
  · cases e with
    | access a =>
      rcases perform_next_tables hu with hk | ⟨rfl, he, hb⟩
      · exact .inl hk
      · exact .inr (.inr ⟨hp, he, hb⟩)
    | storeByte a v => obtain rfl := Host.Outcome.next.inj hu; exact .inl ⟨rfl, rfl⟩
    | loadByte a => obtain rfl := Host.Outcome.next.inj hu; exact .inl ⟨rfl, rfl⟩
    | reset => obtain rfl := Host.Outcome.next.inj hu; exact .inr (.inl ⟨hp, rfl⟩)

/-- Settles O13, by the three things a step can do with the tables. -/
theorem tablesAreFixedOnceBuilt : Obligations.TablesAreFixedOnceBuilt := by
  intro s t h
  rcases step_next_tables h with ⟨htab, htv⟩ | ⟨hp, htv⟩ | ⟨hp, -, hs, htab, htv⟩
  · exact ⟨fun hs _ => ⟨htv.trans hs, htab⟩, fun hs ht => by simp [htv, hs] at ht, fun hne => absurd htab hne⟩
  · exact ⟨fun _ hne => absurd hp hne, fun _ ht => by simp [htv] at ht, fun _ => .inl hp⟩
  · exact ⟨fun hs' _ => by simp [hs] at hs', fun _ _ => htab, fun _ => .inr hp⟩

/-! ### At `TV = 0` the tables have no effect

Two states that differ at most in unbuilt tables answer every event alike: the engines and the table windows fault
before they look at an entry, INIT overwrites all of them, and reset forgets them. -/

/-- The same machine with other table contents. -/
def State.withTables (s : State) (tb : Tables) : State := { s with tables := tb }

@[simp] theorem withTables_tv (s : State) (tb : Tables) : (s.withTables tb).tv = s.tv := rfl
@[simp] theorem withTables_err (s : State) (tb : Tables) : (s.withTables tb).err = s.err := rfl

/-- The states differ at most in the tables, and not at all once `TV` is 1. -/
def SameButUnbuilt (t u : State) : Prop := u = { t with tables := u.tables } ∧ (t.tv = true → u = t)

/-- Both outcomes are next states, which differ at most in unbuilt tables. -/
def AnswerAlike (o p : Host.Outcome State Fault Refusal) : Prop :=
  ∃ t u, o = .next t ∧ p = .next u ∧ SameButUnbuilt t u

theorem answerAlike_same (t : State) : AnswerAlike (.next t) (.next t) := ⟨t, t, rfl, rfl, rfl, fun _ => rfl⟩

theorem answerAlike_unbuilt {t : State} (h : t.tv = false) (tb : Tables) :
    AnswerAlike (.next t) (.next (t.withTables tb)) :=
  ⟨t, _, rfl, rfl, rfl, fun ht => by simp [h] at ht⟩

/-- The script's advance touches neither the tables nor `TV`. -/
theorem advance_sameButUnbuilt {t u : State} (h : SameButUnbuilt t u) : SameButUnbuilt (advance t) (advance u) := by
  obtain ⟨hu, heq⟩ := h
  refine ⟨?_, fun ht => by rw [heq ht]⟩
  rw [hu]; rfl

theorem raise_withTables (c : Cause) (i : Word) (s : State) (tb : Tables) :
    raise c i (s.withTables tb) = (raise c i s).withTables tb := by
  cases h : s.err with
  | false => rw [raise_of_clear c i s h, raise_of_clear c i (s.withTables tb) h]; rfl
  | true => rw [raise_of_err c i s h, raise_of_err c i (s.withTables tb) h]

theorem faultingRead_withTables (c : Cause) (i : Word) (s : State) (tb : Tables) :
    faultingRead c i (s.withTables tb) = (faultingRead c i s).withTables tb := by
  simp only [faultingRead, raise_withTables]
  rfl

/-- At `TV = 0` INIT overwrites what the tables held (R84). -/
theorem execInit_withTables {s : State} (h : s.tv = false) (tb : Tables) : execInit (s.withTables tb) = execInit s := by
  simp [execInit_eq, h, State.withTables]

theorem exec_edc_of_unbuilt {s : State} (h : s.tv = false) : exec .edc s = .next (raise .notInit (encode .edc) s) := by
  simp [exec, execEdc, h]

theorem exec_ecc_of_unbuilt {s : State} (h : s.tv = false) : exec .ecc s = .next (raise .notInit (encode .ecc) s) := by
  simp [exec, execEcc, h]

theorem readReg_entry_of_unbuilt {o : Offset} {n : TableName} {i : Byte} {s : State} (hw : windowReg o = .entry n i)
    (h : s.tv = false) : readReg o s = faultingRead .notInit (offsetInfo o) s := by
  simp [readReg, hw, h]

section
variable {s : State} (h : s.tv = false) (tb : Tables)
include h

theorem raise_answerAlike (c : Cause) (i : Word) :
    AnswerAlike (.next (raise c i s)) (.next (raise c i (s.withTables tb))) := by
  rw [raise_withTables]
  exact answerAlike_unbuilt (by simpa using h) tb

theorem faultingRead_answerAlike (c : Cause) (i : Word) :
    AnswerAlike (.next (faultingRead c i s)) (.next (faultingRead c i (s.withTables tb))) := by
  rw [faultingRead_withTables]
  exact answerAlike_unbuilt (by simpa using h) tb

theorem exec_answerAlike (i : Instr) : AnswerAlike (exec i s) (exec i (s.withTables tb)) := by
  cases i with
  | init =>
    rw [exec, exec, execInit_withTables h, execInit_eq]
    exact answerAlike_same _
  | edc =>
    rw [exec_edc_of_unbuilt h, exec_edc_of_unbuilt (s := s.withTables tb) h]
    exact raise_answerAlike h tb _ _
  | ecc =>
    rw [exec_ecc_of_unbuilt h, exec_ecc_of_unbuilt (s := s.withTables tb) h]
    exact raise_answerAlike h tb _ _

theorem writeReg_answerAlike (o : Offset) (v : Word) :
    AnswerAlike (writeReg o v s) (writeReg o v (s.withTables tb)) := by
  unfold writeReg
  cases windowReg o with
  | cmd =>
    show AnswerAlike (writeCmd v s) (writeCmd v (s.withTables tb))
    unfold writeCmd
    cases decode v with
    | command i => exact exec_answerAlike h tb i
    | illegal v => exact raise_answerAlike h tb _ _
  | ctrl => exact answerAlike_unbuilt (t := { s with form2Edc := v[0] }) h tb
  | operand r => exact answerAlike_unbuilt (t := { s with x := s.x.set r v }) h tb
  | status | einfo | reserved | entry => exact raise_answerAlike h tb _ _

theorem readReg_answerAlike (o : Offset) :
    AnswerAlike (.next (readReg o s)) (.next (readReg o (s.withTables tb))) := by
  cases hw : windowReg o with
  | entry n i =>
    rw [readReg_entry_of_unbuilt hw h, readReg_entry_of_unbuilt (s := s.withTables tb) hw h]
    exact faultingRead_answerAlike h tb _ _
  | reserved =>
    simp only [readReg, hw]
    exact faultingRead_answerAlike h tb _ _
  | cmd | status | ctrl | einfo | operand =>
    simp only [readReg, hw]
    exact answerAlike_unbuilt (t := returnData _ s) h tb

theorem perform_answerAlike (a : Transaction) : AnswerAlike (perform a s) (perform a (s.withTables tb)) := by
  cases a with
  | write o w v =>
    cases he : s.err with
    | true => simpa [perform, he] using answerAlike_unbuilt h tb
    | false =>
      cases ha : wholeAligned o w with
      | true => simpa [perform, he, ha] using writeReg_answerAlike h tb o v
      | false => simpa [perform, he, ha] using raise_answerAlike h tb _ _
  | read o w =>
    cases ha : wholeAligned o w with
    | true => simpa [perform, ha] using readReg_answerAlike h tb o
    | false => simpa [perform, ha] using faultingRead_answerAlike h tb _ _

theorem runEvent_answerAlike (e : HostEvent) : AnswerAlike (runEvent e s) (runEvent e (s.withTables tb)) := by
  cases e with
  | access a => exact perform_answerAlike h tb a
  | storeByte a v => exact answerAlike_unbuilt (t := { s with mem := s.mem.write a.toNat v }) h tb
  | loadByte a => exact answerAlike_unbuilt (t := returnData _ s) h tb
  | reset => exact answerAlike_same (coreReset s)

theorem step_answerAlike : AnswerAlike (step s) (step (s.withTables tb)) := by
  cases hp : s.pending with
  | none =>
    rw [step_of_pending_none hp, step_of_pending_none (s := s.withTables tb) hp]
    exact answerAlike_unbuilt h tb
  | some e =>
    obtain ⟨t, u, ht, hu, htu⟩ := runEvent_answerAlike h tb e
    exact ⟨_, _, step_of_runEvent hp ht, step_of_runEvent (s := s.withTables tb) hp hu,
      advance_sameButUnbuilt htu⟩

/-- At `TV = 0` a read of any table word faults (R123). -/
theorem perform_read_entry_of_unbuilt {o : Offset} (ho : 0x400 ≤ o.toNat) (ha : o.toNat % 4 = 0) :
    perform (.read o .word) s = .next (faultingRead .notInit (offsetInfo o) s) := by
  obtain ⟨n, i, hw⟩ := exists_entry_of_windowReg ho
  simp [perform, (wholeAligned_iff o .word).2 ⟨rfl, ha⟩, readReg_entry_of_unbuilt hw h]

end

/-- INIT leaves `TV = 1` (R15). -/
theorem exec_init_leaves_tv (s : State) : ∃ t, exec .init s = .next t ∧ t.tv = true := by
  refine ⟨_, execInit_eq s, ?_⟩
  split
  · assumption
  · rfl

/-- Settles O14: the life of `TV` is `step_next_tables`, the noninterference is `step_answerAlike`. -/
theorem unbuiltTablesAreNeverObserved : Obligations.UnbuiltTablesAreNeverObserved := by
  refine ⟨rfl, fun s t hst => ⟨fun hs ht => ?_, fun hp => ?_, fun hs ht => ?_⟩, fun s t tb hs hst => ?_,
    fun s _ hs => ⟨?_, ?_, fun o ho ha => ?_⟩, exec_init_leaves_tv⟩
  · rcases step_next_tables hst with ⟨-, htv⟩ | ⟨hp, -⟩ | ⟨-, -, -, -, htv⟩
    · simp [htv, hs] at ht
    · exact hp
    · simp [htv] at ht
  · obtain rfl := Host.Outcome.next.inj ((step_of_pending_reset hp).symm.trans hst)
    rfl
  · rcases step_next_tables hst with ⟨-, htv⟩ | ⟨-, htv⟩ | ⟨hp, he, -⟩
    · simp [htv, hs] at ht
    · simp [htv] at ht
    · exact ⟨he, hp⟩
  · obtain ⟨t', u, ht, hu, htu⟩ := step_answerAlike hs tb
    obtain rfl := Host.Outcome.next.inj (ht.symm.trans hst)
    exact ⟨u, hu, htu⟩
  · exact ⟨_, exec_edc_of_unbuilt hs, raise_err .., raise_mem ..⟩
  · exact ⟨_, exec_ecc_of_unbuilt hs, raise_err .., raise_mem ..⟩
  · exact ⟨_, perform_read_entry_of_unbuilt hs ho ha, faultingRead_err ..⟩

end Sys2Proof.Machine

/-! PROOFS. The opcode map: which words are commands, what a write of any other word to `CMD` does, and what the
pseudo-instructions assemble to (30_encoding.md R63, R64, R69; 60_exceptions.md R133). -/

namespace Sys2Proof

/-! ### Which words are commands -/

theorem decode_encode (i : Instr) : decode (encode i) = .command i := by cases i <;> rfl

/-- Each command has one word. -/
theorem decode_eq_command_iff (w : Word) (i : Instr) : decode w = .command i ↔ w = encode i :=
  ⟨eq_encode_of_decode, fun h => h ▸ decode_encode i⟩

/-- The mask of every row of the opcode map keeps the whole word. -/
theorem decode_eq_command_iff_masked (w : Word) (i : Instr) :
    decode w = .command i ↔ w &&& 0xFFFFFFFF#32 = encode i := by
  have hmask : w &&& 0xFFFFFFFF#32 = w := BitVec.and_allOnes
  rw [hmask, decode_eq_command_iff]

/-- Settles O2: each row is `decode_eq_command_iff_masked` at its command, whose word is the row's match. -/
theorem decodeFollowsTheOpcodeMap : Obligations.DecodeFollowsTheOpcodeMap := fun w =>
  ⟨decode_eq_command_iff_masked w .init, decode_eq_command_iff_masked w .edc, decode_eq_command_iff_masked w .ecc⟩

/-- A word that encodes no command is turned away, whole. -/
theorem decode_eq_illegal {w : Word} (h : ∀ i, w ≠ encode i) : decode w = .illegal w := by
  cases hd : decode w with
  | command i => exact absurd (eq_encode_of_decode hd) (h i)
  | illegal v => rw [eq_of_decode_illegal hd]

end Sys2Proof

namespace Sys2Proof.Machine

/-! ### A write of `CMD` -/

/-- At `ERR = 0` a whole write at offset 0 is a write of `CMD`. -/
theorem perform_write_cmd {s : State} (he : s.err = false) (w : Word) :
    perform (.write 0x000#12 .word w) s = writeCmd w s := by
  rw [perform, he]; rfl

/-- An illegal word raises `E_ILLCMD` with the word as `EINFO` (R133). -/
theorem writeCmd_of_illegal {w : Word} (h : decode w = .illegal w) (s : State) :
    writeCmd w s = .next (raise .illCmd w s) := by
  rw [writeCmd, h]

/-- Settles O3: the word encodes no command, so decoding turns it away and the `CMD` write latches the first fault. -/
theorem everyOtherWordIsIllegal : Obligations.EveryOtherWordIsIllegal := by
  intro w hinit hedc hecc
  have hill : decode w = .illegal w := decode_eq_illegal fun i => by
    cases i with
    | init => exact hinit
    | edc => exact hedc
    | ecc => exact hecc
  refine ⟨hill, fun s he => ?_⟩
  rw [perform_write_cmd he, writeCmd_of_illegal hill, raise_of_clear _ _ _ he]
  rfl

end Sys2Proof.Machine

namespace Sys2Proof

/-! ### The pseudo-instructions -/

@[simp] theorem fitsWord_toNat (v : Word) : fitsWord v.toNat = true := by simp [fitsWord, v.isLt]

/-- A pseudo-instruction the assembler accepts gives the transactions of its expansion, in order. -/
theorem assemble_pseudo {p : Pseudo} (h : p.wf = true) :
    assemble [.pseudo p] = some (p.expand.map Statement.encode) := by
  simp [assemble, SourceLine.wf, SourceLine.expand, h]

/-- A 32-bit number is written as it stands. -/
@[simp] theorem encode_wr_toNat (r : RegName) (v : Word) :
    (Statement.wr r v.toNat).encode = .write (BitVec.ofNat 12 r.offset) .word v := by
  simp [Statement.encode]

/-- Settles O57: the numbers fit, so each line assembles to its expansion, encoded statement by statement. -/
theorem pseudoInstructionsExpandAsListed : Obligations.PseudoInstructionsExpandAsListed := by
  refine ⟨rfl, fun a b c => ?_, fun a b c d e f => ?_, fun v hv => ?_⟩
  · rw [assemble_pseudo (by simp [Pseudo.wf])]
    simp only [Pseudo.expand, List.map_cons, List.map_nil, encode_wr_toNat]
    rfl
  · rw [assemble_pseudo (by simp [Pseudo.wf])]
    simp only [Pseudo.expand, List.map_cons, List.map_nil, encode_wr_toNat]
    rfl
  · have hwf : (Pseudo.setForm2 v).wf = true := decide_eq_true (by omega : v ≤ 1)
    rw [assemble_pseudo hwf]
    rfl

end Sys2Proof

/-! PROOFS. INIT and the contents of the tables it builds (40_table_builder.md R80 to R87). -/

namespace Sys2Proof.Machine

/-! ### What INIT does -/

/-- At `TV = 1` INIT does nothing (R80). -/
theorem exec_init_of_built {s : State} (h : s.tv = true) : exec .init s = .next s := by
  rw [exec, execInit_eq, if_pos h]

/-- At `TV = 0` INIT leaves the built tables and `TV = 1` (R80). -/
theorem exec_init_of_unbuilt {s : State} (h : s.tv = false) :
    exec .init s = .next { s with tables := builtTables, tv := true } := by
  rw [exec, execInit_eq, if_neg (by simp [h])]

/-- A write at `ERR = 1` is ignored (43_register_access.md R124). -/
theorem perform_write_of_err {s : State} (he : s.err = true) (o : Offset) (w : Width) (v : Word) :
    perform (.write o w v) s = .next s := by
  rw [perform, if_pos he]

/-! ### The entries -/

/-- The rounds of R82 are the iterates of one round. -/
theorem edcRounds_eq_iterate (n : Nat) (e : Word) : edcRounds n e = edcRound^[n] e := by
  induction n generalizing e with
  | zero => rfl
  | succ n ih => exact ih (edcRound e)

/-- A built EDC entry is 8 rounds from its index (R87). -/
theorem edcTAt_builtTables_eq_iterate (i : Byte) : builtTables.edcTAt i = edcRound^[8] (i.setWidth 32) := by
  rw [edcTAt_builtTables, edcEntry, edcRounds_eq_iterate]

/-- `ECC_B` at the index R81 writes gives back the byte (R86). -/
theorem eccBAt_builtTables_eccKey (i : Byte) : builtTables.eccBAt (eccKey i) = i := by
  rw [eccBAt_builtTables, thirdOf_eccKey]

/-- `ECC_F` alone is no inverse of `ECC_B`: the index R81 writes for i is `i ^ ECC_F[i]`, which is `ECC_F[i]` only for
i = 0 (R86). -/
theorem eccBAt_builtTables_eccForward_iff (i : Byte) : builtTables.eccBAt (eccForward i) = i ↔ i = 0#8 := by
  rw [eccBAt_builtTables]
  constructor
  · intro h
    have hkey : i ^^^ eccForward i = eccForward i := by
      calc i ^^^ eccForward i = eccKey (thirdOf (eccForward i)) := by rw [h, eccKey]
        _ = eccForward i := eccKey_thirdOf _
    exact xor_right_eq_self_iff.1 hkey
  · rintro rfl
    decide

/-! ### The obligations -/

/-- Settles O7: the tables are the built ones, whose entries are those of R81 and R82; no bit of `j` is lost in its
byte. -/
theorem initBuildsTheTables : Obligations.InitBuildsTheTables := by
  refine fun s => ⟨exec_init_of_built, fun h => ⟨builtTables, exec_init_of_unbuilt h, fun i => ?_⟩,
    fun he => perform_write_of_err he _ _ _⟩
  exact ⟨eccForward i, eccFeedback_fits i, eccFAt_builtTables i, eccBAt_builtTables_eccKey i,
    edcTAt_builtTables_eq_iterate i⟩

/-- Settles O8: INIT on either state leaves the built tables, and after it, at `TV = 1`, another INIT does nothing. -/
theorem repeatedInitYieldsIdenticalTables : Obligations.RepeatedInitYieldsIdenticalTables := by
  intro s u t v hs hu ht hv
  obtain rfl := Host.Outcome.next.inj ((exec_init_of_unbuilt hs).symm.trans ht)
  obtain rfl := Host.Outcome.next.inj ((exec_init_of_unbuilt hu).symm.trans hv)
  exact ⟨rfl, exec_init_of_built rfl⟩

/-- Settles O9: by the invariant the tables are the built ones. -/
theorem backwardTableInvertsForwardXorIndex : Obligations.BackwardTableInvertsForwardXorIndex := by
  intro s hinv hs i
  rw [hinv.tablesBuilt hs, eccFAt_builtTables, BitVec.xor_comm]
  exact ⟨eccBAt_builtTables_eccKey i, eccBAt_builtTables_eccForward_iff i⟩

/-- Settles O11: by the invariant the tables are the built ones. -/
theorem edcTableIsEightRounds : Obligations.EdcTableIsEightRounds := by
  intro s hinv hs
  rw [hinv.tablesBuilt hs]
  exact ⟨edcTAt_builtTables_eq_iterate, by rw [edcTAt_builtTables, edcEntry_zero]⟩

end Sys2Proof.Machine

/-! PROOFS. The EDC command: its outcomes, the checksum it stores, and the sources whose checksum is 0
(41_edc_engine.md R90 to R96). -/

namespace Sys2Proof.Machine

/-! ### The accesses -/

theorem EdcArgs.accesses_eq (g : EdcArgs) :
    g.accesses = (List.range g.len).map (fun k => Access.mk .read (g.src + k))
      ++ [⟨.write, g.dst⟩, ⟨.write, g.dst + 1⟩, ⟨.write, g.dst + 2⟩, ⟨.write, g.dst + 3⟩] := rfl

/-- `MEM_ADMIT` of an EDC command is `MEM_ADMIT` of each source byte and of each destination byte. -/
theorem EdcArgs.admitsAll_accesses_iff (p : Platform) (g : EdcArgs) :
    p.admitsAll g.accesses = true ↔
      (∀ k, k < g.len → p.admits ⟨.read, g.src + k⟩ = true) ∧ (∀ k, k < 4 → p.admits ⟨.write, g.dst + k⟩ = true) := by
  rw [Platform.admitsAll_iff, EdcArgs.accesses, List.forall_mem_append]
  simp only [List.forall_mem_map, List.mem_range]

/-- With `LEN = 0` nothing is read (R93). -/
theorem EdcArgs.kind_of_mem_accesses_of_len_zero {g : EdcArgs} (hlen : g.len = 0) :
    ∀ a ∈ g.accesses, a.kind = .write := by
  rw [EdcArgs.accesses_eq, hlen]
  simp

/-! ### The outcomes at `TV = 1` -/

theorem EdcArgs.outOfRange_iff (g : EdcArgs) :
    g.outOfRange = true ↔ g.src + g.len > Config.addressLimit ∨ g.dst + 4 > Config.addressLimit := by
  simp [EdcArgs.outOfRange]

section
variable {s : State} (htv : s.tv = true)
include htv

/-- A range past the top of memory is a fault (R90). -/
theorem exec_edc_of_outOfRange (hr : s.x.edcArgs.outOfRange = true) :
    exec .edc s = .next (raise .range (encode .edc) s) := by
  simp [exec, execEdc, htv, hr]

/-- With every access admitted the checksum of the source bytes is stored at `DST`, and only memory changes
(R91, R92). -/
theorem exec_edc_of_admitted (hr : s.x.edcArgs.outOfRange = false)
    (ha : s.platform.admitsAll s.x.edcArgs.accesses = true) :
    exec .edc s = .next
      { s with
        mem := s.mem.writeWordLE s.x.edcArgs.dst
          (edcOf s.tables (bytesAt s.mem s.x.edcArgs.src s.x.edcArgs.len)) } := by
  simp [exec, execEdc, htv, hr, ha, edcChecksum_eq_edcOf]

/-- With an access not admitted there is no step (60_exceptions.md R145). -/
theorem exec_edc_of_not_admitted (hr : s.x.edcArgs.outOfRange = false)
    (ha : ¬ s.platform.admitsAll s.x.edcArgs.accesses = true) : exec .edc s = .fault .stuck := by
  simp [exec, execEdc, htv, hr, ha]

end

/-! ### The checksum -/

@[simp] theorem edcOf_nil (t : Tables) : edcOf t [] = 0#32 := rfl

/-- The checksum is the engine's accumulator step folded over the bytes. -/
theorem edcOf_eq_foldl (t : Tables) (bs : List Byte) : edcOf t bs = bs.foldl (edcStep t) 0#32 := rfl

/-- The checksum of a range as a fold over its addresses (R91). -/
theorem edcOf_bytesAt (t : Tables) (m : Memory) (a n : Nat) :
    edcOf t (bytesAt m a n) = (List.range n).foldl (fun acc k => edcStep t acc (m.read (a + k))) 0#32 :=
  List.foldl_map

/-- `EDC_T[0] = 0`, so a zero byte leaves a zero accumulator at 0. -/
theorem edcStep_builtTables_zero : edcStep builtTables 0#32 0#8 = 0#32 := by
  simp [edcStep, edcEntry_zero]

/-- Leading zero bytes do not change the checksum: the accumulator stays at its initial 0 over them. -/
theorem edcOf_builtTables_replicate_zero_append (n : Nat) (bs : List Byte) :
    edcOf builtTables (List.replicate n 0#8 ++ bs) = edcOf builtTables bs := by
  simp only [edcOf_eq_foldl]
  induction n with
  | zero => rfl
  | succ n ih => rw [List.replicate_succ, List.cons_append, List.foldl_cons, edcStep_builtTables_zero, ih]

/-- Zero bytes have checksum 0 (R94). -/
theorem edcOf_builtTables_replicate_zero (n : Nat) : edcOf builtTables (List.replicate n 0#8) = 0#32 := by
  simpa using edcOf_builtTables_replicate_zero_append n []

/-- A range that reads as one byte throughout. -/
theorem bytesAt_eq_replicate {m : Memory} {a n : Nat} {b : Byte} (h : ∀ k, k < n → m.read (a + k) = b) :
    bytesAt m a n = List.replicate n b := by
  simpa [bytesAt, List.eq_replicate_iff] using h

@[simp] theorem byteOf_zero (k : Nat) : byteOf 0#32 k = 0#8 := by simp [byteOf]

/-! ### The obligations -/

/-- Settles O15: the clauses are EDC's outcomes in the order of its checks; what is stored is read back byte by byte,
and the checksum is the fold over the source addresses. -/
theorem edcFollowsItsPseudocode : Obligations.EdcFollowsItsPseudocode := by
  intro s src len dst acc admitted
  have hadm : s.platform.admitsAll s.x.edcArgs.accesses = true ↔ admitted := EdcArgs.admitsAll_accesses_iff _ _
  have hacc : edcOf s.tables (bytesAt s.mem src len) = acc := edcOf_bytesAt _ _ _ _
  have hrange : src + len ≤ 2 ^ 32 → dst + 4 ≤ 2 ^ 32 → s.x.edcArgs.outOfRange = false :=
    fun hsrc hdst => s.x.edcArgs.outOfRange_eq_false.2 ⟨hsrc, hdst⟩
  refine ⟨fun he htv => ?_, fun he htv hout => ?_, fun hwf htv hsrc hdst ha => ?_, fun htv hsrc hdst ha => ?_,
    EdcArgs.accesses_eq _⟩
  · rw [exec_edc_of_unbuilt htv, raise_of_clear _ _ _ he]
    rfl
  · rw [exec_edc_of_outOfRange htv (s.x.edcArgs.outOfRange_iff.2 hout), raise_of_clear _ _ _ he]
    rfl
  · refine ⟨_, exec_edc_of_admitted htv (hrange hsrc hdst) (hadm.2 ha), Memory.wf_writeWordLE _ hwf hdst,
      fun k hk => ?_, fun a => Memory.read_writeWordLE_ne _ _⟩
    rw [← hacc]
    exact Memory.read_writeWordLE _ hwf hdst hk
  · exact exec_edc_of_not_admitted htv (hrange hsrc hdst) (mt hadm.1 ha)

/-- Settles O16: an empty source is in range wherever `SRC` is, and its checksum is the initial 0. -/
theorem edcOfNothingWritesFourZeroBytes : Obligations.EdcOfNothingWritesFourZeroBytes := by
  intro s hwf htv hlen hdst hadm
  have hlen0 : s.x.edcArgs.len = 0 := congrArg BitVec.toNat hlen
  have hrange : s.x.edcArgs.outOfRange = false :=
    s.x.edcArgs.outOfRange_eq_false.2 ⟨hlen0 ▸ s.x.src.isLt.le, hdst⟩
  have ha : s.platform.admitsAll s.x.edcArgs.accesses = true :=
    (EdcArgs.admitsAll_accesses_iff _ _).2 ⟨fun k hk => absurd hk (by omega), hadm⟩
  have hexec := exec_edc_of_admitted htv hrange ha
  have hsum : edcOf s.tables (bytesAt s.mem s.x.edcArgs.src s.x.edcArgs.len) = 0#32 := by
    rw [hlen0]
    exact edcOf_nil _
  rw [hsum] at hexec
  refine ⟨EdcArgs.kind_of_mem_accesses_of_len_zero hlen0, _, hexec, fun k hk => ?_,
    fun a => Memory.read_writeWordLE_ne _ _⟩
  exact (Memory.read_writeWordLE _ hwf hdst hk).trans (byteOf_zero k)

/-- Settles O17: by the invariant the tables are the built ones, under which zero bytes have checksum 0. -/
theorem edcOfZeroBytesIsZero : Obligations.EdcOfZeroBytesIsZero := by
  intro s hinv htv hsrc hdst hadm hzero
  have hexec := exec_edc_of_admitted htv (s.x.edcArgs.outOfRange_eq_false.2 ⟨hsrc, hdst⟩) hadm
  have hbytes : bytesAt s.mem s.x.edcArgs.src s.x.edcArgs.len = List.replicate s.x.edcArgs.len 0#8 :=
    bytesAt_eq_replicate hzero
  have hsum : edcOf s.tables (bytesAt s.mem s.x.edcArgs.src s.x.edcArgs.len) = 0#32 := by
    rw [hinv.tablesBuilt htv, hbytes, edcOf_builtTables_replicate_zero]
  rw [hsum] at hexec
  refine ⟨_, hexec, fun k hk => ?_⟩
  exact (Memory.read_writeWordLE _ hinv.memWf hdst hk).trans (byteOf_zero k)

/-- Settles O19: `DST + 4` passes 2^32 exactly from 0xFFFFFFFD on; below, the checksum is taken from the memory before
the writes, wherever they fall. -/
theorem edcAtTheTopOfMemoryAndOverlapping : Obligations.EdcAtTheTopOfMemoryAndOverlapping := by
  refine fun s htv => ⟨fun he htop => ?_, fun hwf hplat hsrc htop => ?_⟩
  · have hout : s.x.dst.toNat + 4 > 2 ^ 32 := by omega
    rw [exec_edc_of_outOfRange htv (s.x.edcArgs.outOfRange_iff.2 (.inr hout)), raise_of_clear _ _ _ he]
    rfl
  · have hdst : s.x.dst.toNat + 4 ≤ 2 ^ 32 := by omega
    exact ⟨_, exec_edc_of_admitted htv (s.x.edcArgs.outOfRange_eq_false.2 ⟨hsrc, hdst⟩)
      (Platform.admitsAll_of_default hplat _), fun k hk => Memory.read_writeWordLE _ hwf hdst hk⟩

end Sys2Proof.Machine

/-! PROOFS. The ECC command: its geometry check, the addresses of a lane's samples, its outcomes, and what its result
depends on (42_ecc_engine.md R100 to R107, R111). -/

namespace Sys2Proof.Machine

/-! ### The geometry -/

namespace EccArgs

/-- The lane start with quotient and remainder for shift and mask (R102). -/
theorem laneStart_eq (g : EccArgs) (major : Nat) : g.laneStart major = (major / 2) * g.majorMult + major % 2 := by
  rw [laneStart, Nat.shiftRight_one, Nat.and_one_is_mod]

/-- Lanes of one parity start at a distance of `MAJOR_MULT` from one to the next. -/
theorem laneStart_add_two_mul (g : EccArgs) (major j : Nat) :
    g.laneStart (major + 2 * j) = g.laneStart major + j * g.majorMult := by
  have hquot : (major + 2 * j) / 2 = major / 2 + j := by omega
  have hrem : (major + 2 * j) % 2 = major % 2 := by omega
  rw [laneStart_eq, laneStart_eq, hquot, hrem, Nat.add_mul]
  omega

/-- Among lanes of one parity the last starts last. -/
theorem laneStart_le (g : EccArgs) {lane last : Nat} (hle : lane ≤ last) (hpar : lane % 2 = last % 2) :
    g.laneStart lane ≤ g.laneStart last := by
  obtain ⟨j, rfl⟩ : ∃ j, last = lane + 2 * j := ⟨(last - lane) / 2, by omega⟩
  rw [laneStart_add_two_mul]
  exact Nat.le_add_right _ _

/-- Every lane starts below a bound when the last two do, one of each parity; with a single lane there is only the
last. -/
theorem forall_laneStart_lt_iff {g : EccArgs} (hpos : g.majorCount ≠ 0) (bound : Nat) :
    (∀ major, major < g.majorCount → g.laneStart major < bound) ↔
      g.laneStart (g.majorCount - 1) < bound
        ∧ (g.majorCount = 1 ∨ g.laneStart (g.majorCount - 2) < bound) := by
  constructor
  · intro h
    refine ⟨h _ (by omega), or_iff_not_imp_left.2 fun _ => h _ (by omega)⟩
  · rintro ⟨hlast, hprev⟩ major hmajor
    by_cases hpar : major % 2 = (g.majorCount - 1) % 2
    · exact (g.laneStart_le (by omega) hpar).trans_lt hlast
    · exact (g.laneStart_le (by omega) (by omega)).trans_lt (hprev.resolve_left (by omega))

/-- What the check accepts is the quantified `GEOM_OK` (R107). -/
theorem geomOk_iff (g : EccArgs) :
    g.geomOk = true ↔ g.majorCount = 0 ∨ g.minorCount = 0
      ∨ (g.minorInc ≤ g.size ∧ ∀ major, major < g.majorCount → g.laneStart major < g.size) := by
  by_cases hpos : g.majorCount = 0
  · simp [geomOk, hpos]
  · rw [forall_laneStart_lt_iff hpos]
    simp [geomOk, hpos, and_assoc]

/-- A geometry with a lane and a sample that passes the check. -/
theorem bounds_of_geomOk {g : EccArgs} (hg : g.geomOk = true) {major : Nat} (hmajor : major < g.majorCount)
    (hpos : 0 < g.minorCount) : g.minorInc ≤ g.size ∧ g.laneStart major < g.size := by
  obtain h | h | ⟨hinc, hstart⟩ := g.geomOk_iff.1 hg
  · omega
  · omega
  · exact ⟨hinc, hstart major hmajor⟩

theorem size_pos {g : EccArgs} {major : Nat} (hmajor : major < g.majorCount) (hpos : 0 < g.minorCount) :
    0 < g.size := Nat.mul_pos (by omega) hpos

/-! ### The index -/

/-- Below `size` the advance only adds. -/
theorem advanceIndex_of_lt {g : EccArgs} {i : Nat} (h : i + g.minorInc < g.size) :
    g.advanceIndex i = i + g.minorInc := if_neg (by omega)

/-- At or past `size` the advance subtracts `size`, once. -/
theorem advanceIndex_of_ge {g : EccArgs} {i : Nat} (h : g.size ≤ i + g.minorInc) :
    g.advanceIndex i = i + g.minorInc - g.size := if_pos h

/-- From below `size` the one subtraction is the true modulo (R104). -/
theorem advanceIndex_eq_mod {g : EccArgs} (hinc : g.minorInc ≤ g.size) {i : Nat} (hi : i < g.size) :
    g.advanceIndex i = (i + g.minorInc) % g.size := by
  rcases Nat.lt_or_ge (i + g.minorInc) g.size with h | h
  · rw [advanceIndex_of_lt h, Nat.mod_eq_of_lt h]
  · rw [advanceIndex_of_ge h, Nat.mod_eq_sub_mod h, Nat.mod_eq_of_lt (by omega)]

/-- The indices a lane reads, without the loop. -/
theorem indices_eq_map {g : EccArgs} (hinc : g.minorInc ≤ g.size) (n : Nat) {i : Nat} (hi : i < g.size) :
    g.indices n i = (List.range n).map fun k => (i + k * g.minorInc) % g.size := by
  induction n generalizing i with
  | zero => rfl
  | succ n ih =>
    have hnext : g.advanceIndex i = (i + g.minorInc) % g.size := advanceIndex_eq_mod hinc hi
    have hlt : g.advanceIndex i < g.size := hnext ▸ Nat.mod_lt _ (by omega)
    rw [indices, ih hlt, List.range_succ_eq_map, List.map_cons, List.map_map, Nat.zero_mul, Nat.add_zero,
      Nat.mod_eq_of_lt hi]
    congr 1
    refine List.map_congr_left fun k _ => ?_
    simp only [Function.comp_apply, Nat.succ_mul]
    rw [hnext, Nat.mod_add_mod, Nat.add_right_comm, Nat.add_assoc]

/-- The addresses a lane reads are its sample addresses. -/
theorem map_indices_laneStart {g : EccArgs} (hg : g.geomOk = true) {major : Nat} (hmajor : major < g.majorCount) :
    (g.indices g.minorCount (g.laneStart major)).map (fun i => g.src + i)
      = (List.range g.minorCount).map (g.sampleAddress major) := by
  rcases Nat.eq_zero_or_pos g.minorCount with hzero | hpos
  · rw [hzero]
    rfl
  · obtain ⟨hinc, hstart⟩ := bounds_of_geomOk hg hmajor hpos
    rw [indices_eq_map hinc _ hstart, List.map_map, laneStart_eq]
    rfl

/-- A sample address is one of the span. -/
theorem exists_sampleAddress_eq {g : EccArgs} {major k : Nat} (hmajor : major < g.majorCount)
    (hk : k < g.minorCount) : ∃ i, i < g.size ∧ g.sampleAddress major k = g.src + i :=
  ⟨_, Nat.mod_lt _ (size_pos hmajor (by omega)), rfl⟩

/-! ### The accesses -/

/-- The accesses of a lane: its samples in order, then its two destination bytes. -/
theorem laneAccesses_eq {g : EccArgs} (hg : g.geomOk = true) {major : Nat} (hmajor : major < g.majorCount) :
    g.laneAccesses major = (List.range g.minorCount).map (fun k => Access.mk .read (g.sampleAddress major k))
      ++ [⟨.write, g.dst + major⟩, ⟨.write, g.dst + major + g.majorCount⟩] := by
  have h := congrArg (List.map (Access.mk .read)) (map_indices_laneStart hg hmajor)
  rw [List.map_map, List.map_map] at h
  exact congrArg (· ++ _) h

/-- A property of every access of an ECC command, by samples and destination bytes. -/
theorem forall_mem_accesses_iff {g : EccArgs} (hg : g.geomOk = true) (P : Access → Prop) :
    (∀ a ∈ g.accesses, P a) ↔
      (∀ major k, major < g.majorCount → k < g.minorCount → P ⟨.read, g.sampleAddress major k⟩)
      ∧ (∀ k, k < 2 * g.majorCount → P ⟨.write, g.dst + k⟩) := by
  have hlane : ∀ major, major < g.majorCount → ((∀ a ∈ g.laneAccesses major, P a) ↔
      (∀ k, k < g.minorCount → P ⟨.read, g.sampleAddress major k⟩)
      ∧ P ⟨.write, g.dst + major⟩ ∧ P ⟨.write, g.dst + major + g.majorCount⟩) := fun major hmajor => by
    rw [laneAccesses_eq hg hmajor, List.forall_mem_append]
    simp only [List.forall_mem_map, List.mem_range, List.forall_mem_cons, List.not_mem_nil, false_imp_iff, implies_true,
      and_true]
  simp only [accesses, List.mem_flatMap, List.mem_range]
  constructor
  · intro h
    have hl := fun major hmajor => (hlane major hmajor).1 fun a ha => h a ⟨major, hmajor, ha⟩
    refine ⟨fun major k hmajor => (hl major hmajor).1 k, fun k hk => ?_⟩
    rcases Nat.lt_or_ge k g.majorCount with hlow | hhigh
    · exact (hl k hlow).2.1
    · obtain ⟨major, rfl⟩ := Nat.exists_eq_add_of_le' hhigh
      exact Nat.add_assoc .. ▸ (hl major (by omega)).2.2
  · rintro ⟨hread, hwrite⟩ a ⟨major, hmajor, ha⟩
    exact (hlane major hmajor).2 ⟨fun k => hread major k hmajor, hwrite major (by omega),
      Nat.add_assoc .. ▸ hwrite (major + g.majorCount) (by omega)⟩ a ha

/-- `MEM_ADMIT` of an ECC command is `MEM_ADMIT` of each sample and of each destination byte. -/
theorem admitsAll_accesses_iff (p : Platform) {g : EccArgs} (hg : g.geomOk = true) :
    p.admitsAll g.accesses = true ↔
      (∀ major k, major < g.majorCount → k < g.minorCount → p.admits ⟨.read, g.sampleAddress major k⟩ = true)
      ∧ (∀ k, k < 2 * g.majorCount → p.admits ⟨.write, g.dst + k⟩ = true) := by
  rw [Platform.admitsAll_iff, forall_mem_accesses_iff hg]

end EccArgs

/-- Settles O25: the advance by cases, and every read is a sample address, which the modulo keeps in the span. -/
theorem eccIndexNeverLeavesTheSpan : Obligations.EccIndexNeverLeavesTheSpan := by
  refine fun g => ⟨fun i => EccArgs.advanceIndex_of_lt, fun i => EccArgs.advanceIndex_of_ge, fun hg hpos => ?_,
    fun hg => ?_⟩
  · refine ⟨fun major hmajor => (EccArgs.bounds_of_geomOk hg hmajor hpos).2, fun major i hmajor hi => ?_⟩
    have hmod := EccArgs.advanceIndex_eq_mod (EccArgs.bounds_of_geomOk hg hmajor hpos).1 hi
    exact ⟨hmod ▸ Nat.mod_lt _ (by omega), hmod⟩
  · refine (EccArgs.forall_mem_accesses_iff hg _).2 ⟨fun major k hmajor hk _ => ?_, fun k _ hread => ?_⟩
    · obtain ⟨i, hi, haddr⟩ := EccArgs.exists_sampleAddress_eq hmajor hk
      simp only [haddr]
      omega
    · exact absurd hread (by simp)

/-! ### The lanes -/

/-- One sample's effect on the sums `a` and `b` (R103). -/
def sumStep (t : Tables) (p : Byte × Byte) (d : Byte) : Byte × Byte := (t.eccFAt (p.1 ^^^ d), p.2 ^^^ d)

theorem laneSums_eq_foldl (t : Tables) (ds : List Byte) : laneSums t ds = ds.foldl (sumStep t) (0#8, 0#8) := rfl

/-- The lane's loop is the fold of its sums over the bytes it reads. -/
theorem laneLoop_sums (t : Tables) (m : Memory) (g : EccArgs) (n : Nat) (l : Lane) :
    ((laneLoop t m g n l).a, (laneLoop t m g n l).b)
      = (((g.indices n l.index).map (fun i => g.src + i)).map m.read).foldl (sumStep t) (l.a, l.b) := by
  induction n generalizing l with
  | zero => rfl
  | succ n ih => exact ih (laneStep t m g l)

theorem laneResult_sums (t : Tables) (m : Memory) {g : EccArgs} (hg : g.geomOk = true) {major : Nat}
    (hmajor : major < g.majorCount) :
    ((laneResult t m g major).a, (laneResult t m g major).b) = laneSums t (g.samples m major) := by
  rw [laneResult, laneLoop_sums, EccArgs.map_indices_laneStart hg hmajor, List.map_map]
  rfl

/-- A lane writes the parity of its samples to its two destination bytes (R105, R106). -/
theorem runLane_eq (t : Tables) (m : Memory) {g : EccArgs} (hg : g.geomOk = true) {major : Nat}
    (hmajor : major < g.majorCount) :
    runLane t g m major
      = (m.write (g.dst + major) (laneParity t (g.samples m major)).1).write (g.dst + major + g.majorCount)
          (laneParity t (g.samples m major)).2 := by
  simp only [laneParity, ← laneResult_sums t m hg hmajor]
  rfl

/-- The last lane runs on what the lanes before it left. -/
theorem runLanes_succ (t : Tables) (g : EccArgs) (n major : Nat) (m : Memory) :
    runLanes t g (n + 1) major m = runLane t g (runLanes t g n major m) (major + n) := by
  induction n generalizing major m with
  | zero => rfl
  | succ n ih => rw [runLanes, ih, runLanes, Nat.add_right_comm, Nat.add_assoc]

/-! ### The outcomes at `TV = 1` -/

section
variable {s : State} (htv : s.tv = true)
include htv

theorem exec_ecc_of_geomOk_false (hg : s.x.eccArgs.geomOk = false) :
    exec .ecc s = .next (raise .geometry (encode .ecc) s) := by
  simp [exec, execEcc, htv, hg]

variable (hg : s.x.eccArgs.geomOk = true)
include hg

/-- A range past the top of memory is a fault (R100). -/
theorem exec_ecc_of_outOfRange (hr : s.x.eccArgs.outOfRange = true) :
    exec .ecc s = .next (raise .range (encode .ecc) s) := by
  simp [exec, execEcc, htv, hg, hr]

variable (hr : s.x.eccArgs.outOfRange = false)
include hr

/-- With every access admitted the lanes run, and only memory changes. -/
theorem exec_ecc_of_admitted (ha : s.platform.admitsAll s.x.eccArgs.accesses = true) :
    exec .ecc s = .next { s with mem := runLanes s.tables s.x.eccArgs s.x.eccArgs.majorCount 0 s.mem } := by
  simp [exec, execEcc, htv, hg, hr, ha]

/-- With an access not admitted there is no step (60_exceptions.md R145). -/
theorem exec_ecc_of_not_admitted (ha : ¬ s.platform.admitsAll s.x.eccArgs.accesses = true) :
    exec .ecc s = .fault .stuck := by
  simp [exec, execEcc, htv, hg, hr, ha]

end

/-- A command that answers with `ERR = 0` has passed its checks and run its lanes. -/
theorem exec_ecc_next_of_clear {s t : State} (h : exec .ecc s = .next t) (hc : t.err = false) :
    s.x.eccArgs.geomOk = true ∧ s.x.eccArgs.outOfRange = false
      ∧ t.mem = runLanes s.tables s.x.eccArgs s.x.eccArgs.majorCount 0 s.mem := by
  rcases execEcc_next_cases h with ⟨_, rfl⟩ | ⟨_, _, rfl⟩ | ⟨_, _, _, rfl⟩ | ⟨_, hg, hr, _, rfl⟩
  case inr.inr.inr => exact ⟨hg, hr, rfl⟩
  all_goals exact absurd hc (by simp)

/-- Settles O26: the check is `geomOk_iff`, and the first fault is recorded. -/
theorem geometryCheckIsTheQuantifiedOne : Obligations.GeometryCheckIsTheQuantifiedOne := by
  refine ⟨fun g => g.geomOk_iff, fun s he htv hg => ?_⟩
  rw [exec_ecc_of_geomOk_false htv hg, raise_of_clear _ _ _ he]
  rfl

/-- Settles O22: the clauses are ECC's outcomes in the order of its checks; the memories are those the first lanes
leave. -/
theorem eccFollowsItsPseudocode : Obligations.EccFollowsItsPseudocode := by
  intro s g size geometry inRange admitted
  have hgeom : g.geomOk = true ↔ geometry := by
    simp only [geometry, ← EccArgs.laneStart_eq]
    exact g.geomOk_iff
  have hrange : g.outOfRange = false ↔ inRange := g.outOfRange_eq_false
  refine ⟨fun he htv => ?_, fun he htv hg => ?_, fun he htv hg hr => ?_, fun htv hg hr ha => ?_,
    fun htv hg hr ha => ?_⟩
  · rw [exec_ecc_of_unbuilt htv, raise_of_clear _ _ _ he]
    rfl
  · have hg' : g.geomOk = false := Bool.eq_false_iff.2 (mt hgeom.1 hg)
    rw [exec_ecc_of_geomOk_false htv hg', raise_of_clear _ _ _ he]
    rfl
  · have hr' : g.outOfRange = true := Bool.eq_true_of_not_eq_false (mt hrange.1 hr)
    rw [exec_ecc_of_outOfRange htv (hgeom.2 hg) hr', raise_of_clear _ _ _ he]
    rfl
  · have hg' := hgeom.2 hg
    refine ⟨fun n => runLanes s.tables g n 0 s.mem,
      exec_ecc_of_admitted htv hg' (hrange.2 hr) ((EccArgs.admitsAll_accesses_iff _ hg').2 ha), rfl,
      fun major hmajor => ?_⟩
    simp only [runLanes_succ, Nat.zero_add]
    exact runLane_eq _ _ hg' hmajor
  · have hg' := hgeom.2 hg
    exact exec_ecc_of_not_admitted htv hg' (hrange.2 hr) (mt (EccArgs.admitsAll_accesses_iff _ hg').1 ha)

/-! ### What the result depends on -/

/-- The parity depends on `ECC_F` and `ECC_B` alone. -/
theorem laneParity_congr {t u : Tables} (hF : t.eccF = u.eccF) (hB : t.eccB = u.eccB) (ds : List Byte) :
    laneParity t ds = laneParity u ds := by
  simp only [laneParity, laneSums, Tables.eccFAt, Tables.eccBAt, hF, hB]

/-- The samples depend on the bytes of the span alone. -/
theorem EccArgs.samples_congr {g : EccArgs} {m m' : Memory}
    (hspan : ∀ i, i < g.size → m.read (g.src + i) = m'.read (g.src + i)) {major : Nat}
    (hmajor : major < g.majorCount) : g.samples m major = g.samples m' major := by
  refine List.map_congr_left fun k hk => ?_
  obtain ⟨i, hi, haddr⟩ := EccArgs.exists_sampleAddress_eq hmajor (List.mem_range.1 hk)
  rw [haddr]
  exact hspan i hi

/-- An address of the span, or one that the first `n` lanes write. -/
def EccArgs.settledAfter (g : EccArgs) (n b : Nat) : Prop :=
  (∃ i, i < g.size ∧ b = g.src + i) ∨ ∃ j, j < n ∧ (b = g.dst + j ∨ b = g.dst + j + g.majorCount)

/-- Every destination byte is written by the last lane at the latest. -/
theorem EccArgs.settledAfter_dst (g : EccArgs) {k : Nat} (hk : k < 2 * g.majorCount) :
    g.settledAfter g.majorCount (g.dst + k) := by
  rcases Nat.lt_or_ge k g.majorCount with hlow | hhigh
  · exact .inr ⟨k, hlow, .inl rfl⟩
  · exact .inr ⟨k - g.majorCount, by omega, .inr (by omega)⟩

/-- A byte after a lane: one of the lane's two, or as before. -/
theorem read_runLane (t : Tables) {m : Memory} (hm : m.wf = true) {g : EccArgs} (hg : g.geomOk = true) {major : Nat}
    (hmajor : major < g.majorCount) (hdst : g.dst + 2 * g.majorCount ≤ Config.addressLimit) (b : Nat) :
    (runLane t g m major).read b
      = if b = g.dst + major + g.majorCount then (laneParity t (g.samples m major)).2
        else if b = g.dst + major then (laneParity t (g.samples m major)).1
        else m.read b := by
  rw [runLane_eq t m hg hmajor, Memory.read_write _ (Memory.wf_write _ hm (by omega)), Memory.read_write _ hm]

/-- Lanes on two memories with one span leave the same bytes in the span and wherever they write, also where the
destination overlaps the span: a lane reads only bytes on which the memories still agree. -/
theorem runLanes_read_congr {t u : Tables} (hF : t.eccF = u.eccF) (hB : t.eccB = u.eccB) {g : EccArgs}
    (hg : g.geomOk = true) (hr : g.outOfRange = false) {m m' : Memory} (hm : m.wf = true) (hm' : m'.wf = true)
    (hspan : ∀ i, i < g.size → m.read (g.src + i) = m'.read (g.src + i)) (n : Nat) (hn : n ≤ g.majorCount) {b : Nat}
    (hb : g.settledAfter n b) : (runLanes t g n 0 m).read b = (runLanes u g n 0 m').read b := by
  have hdst := (g.outOfRange_eq_false.1 hr).2
  induction n generalizing b with
  | zero =>
    obtain ⟨i, hi, rfl⟩ | ⟨j, hj, _⟩ := hb
    · exact hspan i hi
    · omega
  | succ n ih =>
    have hsamples : g.samples (runLanes t g n 0 m) n = g.samples (runLanes u g n 0 m') n :=
      EccArgs.samples_congr (fun i hi => ih (by omega) (.inl ⟨i, hi, rfl⟩)) (by omega)
    rw [runLanes_succ, runLanes_succ, Nat.zero_add, read_runLane t (wf_runLanes t g n hm (by omega) hdst) hg hn hdst,
      read_runLane u (wf_runLanes u g n hm' (by omega) hdst) hg hn hdst, hsamples, laneParity_congr hF hB]
    split_ifs with hhigh hlow
    · rfl
    · rfl
    · refine ih (by omega) (hb.imp_right fun ⟨j, hj, hbj⟩ => ⟨j, ?_, hbj⟩)
      obtain hlt | rfl := Nat.lt_succ_iff_lt_or_eq.1 hj
      · exact hlt
      · exact absurd hbj (not_or.2 ⟨hlow, hhigh⟩)

/-- With the destination apart from the span, running the lanes again changes nothing: the span is as before, and
what is written is what is there. -/
theorem runLanes_idempotent (t : Tables) {g : EccArgs} (hg : g.geomOk = true) (hr : g.outOfRange = false)
    (hdis : g.disjoint) {m : Memory} (hm : m.wf = true) :
    runLanes t g g.majorCount 0 (runLanes t g g.majorCount 0 m) = runLanes t g g.majorCount 0 m := by
  have hdst := (g.outOfRange_eq_false.1 hr).2
  have hwf : ∀ {m : Memory}, m.wf = true → (runLanes t g g.majorCount 0 m).wf = true :=
    fun h => wf_runLanes t g _ h (by omega) hdst
  have hspan : ∀ i, i < g.size → (runLanes t g g.majorCount 0 m).read (g.src + i) = m.read (g.src + i) :=
    fun i hi => by
      have hapart : g.src + g.size ≤ g.dst ∨ g.dst + 2 * g.majorCount ≤ g.src := hdis
      exact read_runLanes_ne t g _ m (by omega) (by omega)
  refine Memory.ext (hwf (hwf hm)) (hwf hm) fun b => ?_
  by_cases hb : b < g.dst ∨ g.dst + 2 * g.majorCount ≤ b
  · exact read_runLanes_ne t g _ _ (by omega) hb
  · obtain ⟨k, rfl⟩ := Nat.exists_eq_add_of_le (show g.dst ≤ b by omega)
    exact runLanes_read_congr rfl rfl hg hr (hwf hm) hm hspan _ le_rfl (g.settledAfter_dst (by omega))

/-- Raising the fault that is already recorded changes nothing. -/
theorem raise_raise (c : Cause) (i : Word) (s : State) : raise c i (raise c i s) = raise c i s :=
  raise_of_err _ _ _ (raise_err _ _ _)

/-- ECC again, after an ECC whose destination is apart from the span, answers the state it finds. -/
theorem exec_ecc_idempotent {s t : State} (hm : s.mem.wf = true) (hdis : s.x.eccArgs.disjoint)
    (h : exec .ecc s = .next t) : exec .ecc t = .next t := by
  rcases execEcc_next_cases h with ⟨htv, rfl⟩ | ⟨htv, hg, rfl⟩ | ⟨htv, hg, hr, rfl⟩ | ⟨htv, hg, hr, ha, rfl⟩
  · rw [exec_ecc_of_unbuilt (by simpa using htv), raise_raise]
  · rw [exec_ecc_of_geomOk_false (by simpa using htv) (by simpa using hg), raise_raise]
  · rw [exec_ecc_of_outOfRange (by simpa using htv) (by simpa using hg) (by simpa using hr), raise_raise]
  · have hagain := exec_ecc_of_admitted
      (s := { s with mem := runLanes s.tables s.x.eccArgs s.x.eccArgs.majorCount 0 s.mem }) htv hg hr ha
    simpa only [runLanes_idempotent _ hg hr hdis hm] using hagain

/-- Settles O29: `exec_ecc_idempotent`, and every destination byte is one on which the two runs agree. -/
theorem eccIsDeterministicAndIdempotent : Obligations.EccIsDeterministicAndIdempotent := by
  refine ⟨fun s t => exec_ecc_idempotent, fun s u t v hs hu _ _ hF hB hx hspan ht hv hte hve k hk => ?_⟩
  obtain ⟨hg, hr, htm⟩ := exec_ecc_next_of_clear ht hte
  obtain ⟨-, -, hvm⟩ := exec_ecc_next_of_clear hv hve
  rw [htm, hvm, ← hx]
  exact runLanes_read_congr hF hB hg hr hs hu hspan _ le_rfl (s.x.eccArgs.settledAfter_dst hk)

end Sys2Proof.Machine

/-! PROOFS. The host's transactions on the register window (43_register_access.md R115 to R126). -/

namespace Sys2Proof.Machine

/-! ### What the offsets name -/

theorem windowReg_operand (r : OperandReg) : windowReg (BitVec.ofNat 12 r.offset) = .operand r := by cases r <;> rfl

theorem operand_offset_aligned (r : OperandReg) : (BitVec.ofNat 12 r.offset).toNat % 4 = 0 := by cases r <;> rfl

/-- Between the last operand register and the first table window nothing is mapped. -/
theorem windowReg_reserved {o : Offset} (hlo : 0x02C ≤ o.toNat) (hhi : o.toNat < 0x400) : windowReg o = .reserved := by
  rw [windowReg, if_pos hhi]
  unfold controlReg
  split
  case h_12 => rfl
  all_goals omega

/-- The offset of a table word fits the window's 12 bits. -/
theorem toNat_entry_offset (n : TableName) (i : Byte) :
    (BitVec.ofNat 12 (RegName.entry n i.toNat).offset).toNat = n.windowBase + 4 * i.toNat := by
  have hbase : n.windowBase ≤ 0xC00 := by cases n <;> decide
  have hi := i.isLt
  rw [BitVec.toNat_ofNat, RegName.offset, Nat.mod_eq_of_lt (by omega)]

theorem entry_offset_aligned (n : TableName) (i : Byte) :
    (BitVec.ofNat 12 (RegName.entry n i.toNat).offset).toNat % 4 = 0 := by
  have hbase : n.windowBase % 4 = 0 := by cases n <;> rfl
  rw [toNat_entry_offset]
  omega

/-- Word i of a table's 1 KiB window is entry i (10_state.md R27). -/
theorem entryIndex_entry_offset (n : TableName) (i : Byte) :
    entryIndex (BitVec.ofNat 12 (RegName.entry n i.toNat).offset) = i := by
  have hi := i.isLt
  refine BitVec.eq_of_toNat_eq ?_
  rw [entryIndex, BitVec.extractLsb'_toNat, toNat_entry_offset, Nat.shiftRight_eq_div_pow]
  cases n <;> simp only [TableName.windowBase] <;> omega

theorem windowReg_entry (n : TableName) (i : Byte) :
    windowReg (BitVec.ofNat 12 (RegName.entry n i.toNat).offset) = .entry n i := by
  have hi := i.isLt
  have ho := toNat_entry_offset n i
  rw [windowReg, entryIndex_entry_offset]
  cases n <;> simp only [TableName.windowBase] at ho
  · rw [if_neg (by omega), if_pos (by omega)]
  · rw [if_neg (by omega), if_neg (by omega), if_pos (by omega)]
  · rw [if_neg (by omega), if_neg (by omega), if_neg (by omega)]

/-! ### Faults -/

/-- At `ERR = 0` a faulting read records its fault. -/
theorem faultingRead_of_clear {s : State} (he : s.err = false) (c : Cause) (i : Word) :
    faultingRead c i s =
      { s with err := true, cause := c.code, einfo := i, readLog := Config.freeRead s.freeCount :: s.readLog,
               freeCount := s.freeCount + 1 } := by
  rw [faultingRead, raise_of_clear c i s he]

/-- At `ERR = 1` a faulting read only returns data (R125). -/
theorem faultingRead_of_err {s : State} (he : s.err = true) (c : Cause) (i : Word) :
    faultingRead c i s =
      { s with readLog := Config.freeRead s.freeCount :: s.readLog, freeCount := s.freeCount + 1 } := by
  rw [faultingRead, raise_of_err c i s he]

/-! ### Width and alignment -/

/-- An access of another width or off the words is not whole and aligned (R117). -/
theorem wholeAligned_eq_false {o : Offset} {w : Width} (h : w ≠ .word ∨ o.toNat % 4 ≠ 0) : wholeAligned o w = false := by
  rw [Bool.eq_false_iff, ne_eq, wholeAligned_iff]
  tauto

theorem perform_write_of_not_wholeAligned {s : State} (he : s.err = false) {o : Offset} {w : Width}
    (ha : wholeAligned o w = false) (v : Word) :
    perform (.write o w v) s = .next (raise .regAcc (offsetInfo o) s) := by
  simp [perform, he, ha]

theorem perform_read_of_not_wholeAligned {o : Offset} {w : Width} (ha : wholeAligned o w = false) (s : State) :
    perform (.read o w) s = .next (faultingRead .regAcc (offsetInfo o) s) := by
  simp [perform, ha]

/-- Settles O41: both kinds of access are turned away by `wholeAligned`, and the fault is the first one. -/
theorem onlyWholeAlignedAccessesAreAccepted : Obligations.OnlyWholeAlignedAccessesAreAccepted := by
  intro s o w v he hw
  have ha := wholeAligned_eq_false hw
  constructor
  · rw [perform_write_of_not_wholeAligned he ha, raise_of_clear _ _ _ he]
    rfl
  · rw [perform_read_of_not_wholeAligned ha, faultingRead_of_clear he]
    exact ⟨_, _, rfl⟩

/-! ### Writes of whole words -/

/-- At `ERR = 0` a whole aligned write goes to the register its offset names. -/
theorem perform_write_word {s : State} (he : s.err = false) {o : Offset} (ha : o.toNat % 4 = 0) (v : Word) :
    perform (.write o .word v) s = writeReg o v s := by
  simp [perform, he, (wholeAligned_iff o .word).2 ⟨rfl, ha⟩]

/-- The places of the window no write changes. -/
def RefusesWrites : WindowReg → Prop
  | .status | .einfo | .reserved | .entry _ _ => True
  | .cmd | .ctrl | .operand _ => False

theorem writeReg_of_refusesWrites {o : Offset} (h : RefusesWrites (windowReg o)) (v : Word) (s : State) :
    writeReg o v s = .next (raise .regAcc (offsetInfo o) s) := by
  unfold writeReg
  cases hw : windowReg o with
  | status | einfo | reserved | entry => rfl
  | cmd | ctrl | operand => simp [hw, RefusesWrites] at h

/-- `STATUS`, `EINFO` and everything past the operand registers refuse writes (R121). -/
theorem refusesWrites_windowReg {o : Offset} (h : o.toNat = 0x004 ∨ o.toNat = 0x00C ∨ 0x02C ≤ o.toNat) :
    RefusesWrites (windowReg o) := by
  rcases h with hstatus | heinfo | hpast
  · rw [BitVec.eq_of_toNat_eq (y := 0x004#12) hstatus]
    trivial
  · rw [BitVec.eq_of_toNat_eq (y := 0x00C#12) heinfo]
    trivial
  · rcases Nat.lt_or_ge o.toNat 0x400 with hlt | hge
    · rw [windowReg_reserved hpast hlt]
      trivial
    · obtain ⟨n, i, hw⟩ := exists_entry_of_windowReg hge
      rw [hw]
      trivial

/-- Settles O44: the offset names a place that refuses writes, and the fault is the first one. -/
theorem readOnlyAndReservedOffsetsRefuseWrites : Obligations.ReadOnlyAndReservedOffsetsRefuseWrites := by
  intro s o v he ha ho
  rw [perform_write_word he ha, writeReg_of_refusesWrites (refusesWrites_windowReg ho), raise_of_clear _ _ _ he]
  rfl

theorem writeReg_operand (r : OperandReg) (v : Word) (s : State) :
    writeReg (BitVec.ofNat 12 r.offset) v s = .next { s with x := s.x.set r v } := by
  rw [writeReg, windowReg_operand]

/-- Settles O42: the write is `Operands.set`, and `Operands.get_set` says what it leaves in each register. -/
theorem operandWriteSetsOneRegister : Obligations.OperandWriteSetsOneRegister := by
  intro s r v he
  refine ⟨s.x.set r v, ?_, ?_, fun q hq => ?_⟩
  · rw [perform_write_word he (operand_offset_aligned r), writeReg_operand]
  · rw [Operands.get_set, if_pos rfl]
  · rw [Operands.get_set, if_neg hq]

/-- Settles O43: offset 0x008 is `CTRL`, whose write stores bit 0. -/
theorem ctrlWriteStoresBitZero : Obligations.CtrlWriteStoresBitZero := by
  intro s v he
  rw [perform_write_word he rfl]
  rfl

/-! ### Writes at `ERR = 1` -/

/-- Settles O47: `perform_write_of_err`, as a transaction and as the script's next event. -/
theorem writesAfterAFaultAreIgnored : Obligations.WritesAfterAFaultAreIgnored := fun _ he =>
  ⟨perform_write_of_err he, fun o w v hp => step_of_runEvent hp (perform_write_of_err he o w v)⟩

/-! ### The step that writes `CMD` -/

theorem step_of_pending_cmdWrite {s : State} (he : s.err = false) {w : Word} (hp : s.pending = some (cmdWrite w)) :
    step s = completed (writeCmd w s) := by
  rw [← perform_write_cmd he w, step, hp]
  rfl

theorem writeCmd_of_command {w : Word} {i : Instr} (h : decode w = .command i) (s : State) :
    writeCmd w s = exec i s := by
  rw [writeCmd, h]

/-- Settles O5: the step completes the `CMD` write, which is the command where the word decodes to one, and otherwise
the fault of O3. -/
theorem stepExecutesTheCommandWritten : Obligations.StepExecutesTheCommandWritten := by
  intro s w he hp
  have hstep : step s = completed (writeCmd w s) := step_of_pending_cmdWrite he hp
  refine ⟨fun i hi => ?_, fun h => h ▸ decode_encode .init, fun h => h ▸ decode_encode .edc,
    fun h => h ▸ decode_encode .ecc, fun hinit hedc hecc => ?_⟩
  · rw [hstep, writeCmd_of_command hi]
    exact ⟨fun t ht => by rw [ht]; rfl, fun f hf => by rw [hf]; rfl⟩
  · exact step_of_runEvent hp ((everyOtherWordIsIllegal w hinit hedc hecc).2 s he)

/-! ### Reads of whole words -/

/-- A whole aligned read goes to the register its offset names, whatever `ERR` is. -/
theorem perform_read_word {o : Offset} (ha : o.toNat % 4 = 0) (s : State) :
    perform (.read o .word) s = .next (readReg o s) := by
  simp [perform, (wholeAligned_iff o .word).2 ⟨rfl, ha⟩]

theorem readReg_operand (r : OperandReg) (s : State) :
    readReg (BitVec.ofNat 12 r.offset) s = returnData (s.x.get r) s := by
  rw [readReg, windowReg_operand]

theorem readReg_of_reserved {o : Offset} (h : windowReg o = .reserved) (s : State) :
    readReg o s = faultingRead .regAcc (offsetInfo o) s := by
  rw [readReg, h]

/-- At `TV = 1` a read of a table word returns its entry (R123). -/
theorem perform_read_entry_of_built {s : State} (htv : s.tv = true) (n : TableName) (i : Byte) :
    perform (.read (BitVec.ofNat 12 (RegName.entry n i.toNat).offset) .word) s
      = .next (returnData (s.tables.entryWord n i) s) := by
  rw [perform_read_word (entry_offset_aligned n i), readReg, windowReg_entry]
  simp only [htv, if_true]

/-- Settles O45: each offset is whole and aligned, and names the register whose contents are returned. -/
theorem registerReadsReturnTheirContents : Obligations.RegisterReadsReturnTheirContents := by
  refine fun s => ⟨perform_read_word rfl s, perform_read_word rfl s, perform_read_word rfl s,
    perform_read_word rfl s, fun r => ?_⟩
  rw [perform_read_word (operand_offset_aligned r), readReg_operand]
  rfl

/-- At `TV = 0` and `ERR = 0` a read of a table word raises `E_NOTINIT` with its offset (R123). -/
theorem perform_read_entry_faults {s : State} (htv : s.tv = false) (he : s.err = false) (n : TableName) (i : Byte) :
    ∃ (d : Word) (k : Nat), perform (.read (BitVec.ofNat 12 (RegName.entry n i.toNat).offset) .word) s
      = .next { s with err := true, cause := 2#4, einfo := BitVec.ofNat 32 (RegName.entry n i.toNat).offset,
                       readLog := d :: s.readLog, freeCount := k } := by
  have hinfo : offsetInfo (BitVec.ofNat 12 (RegName.entry n i.toNat).offset)
      = BitVec.ofNat 32 (RegName.entry n i.toNat).offset := by
    rw [offsetInfo, ← BitVec.ofNat_toNat, toNat_entry_offset, RegName.offset]
  rw [perform_read_word (entry_offset_aligned n i), readReg_entry_of_unbuilt (windowReg_entry n i) htv,
    faultingRead_of_clear he, hinfo]
  exact ⟨_, _, rfl⟩

/-- Settles O46: each window is its table's, so both halves are the lemmas on reads of a table word. -/
theorem tableWindowsReadTheEntries : Obligations.TableWindowsReadTheEntries := by
  refine fun s i => ⟨fun htv => ?_, fun htv he base hbase => ?_⟩
  · exact ⟨perform_read_entry_of_built htv .eccF i, perform_read_entry_of_built htv .eccB i,
      perform_read_entry_of_built htv .edcT i⟩
  · rcases hbase with rfl | rfl | rfl
    · exact perform_read_entry_faults htv he .eccF i
    · exact perform_read_entry_faults htv he .eccB i
    · exact perform_read_entry_faults htv he .edcT i

/-- Settles O49: the offset is reserved, and the faulting read records at `ERR = 0` and keeps the record at
`ERR = 1`. -/
theorem reservedOffsetsRefuseReads : Obligations.ReservedOffsetsRefuseReads := by
  intro s o ha hlo hhi
  rw [perform_read_word ha, readReg_of_reserved (windowReg_reserved hlo (by omega))]
  exact ⟨_, _, fun he => by rw [faultingRead_of_clear he]; rfl, fun he => by rw [faultingRead_of_err he]⟩

/-! ### Reads at `ERR = 1` -/

/-- At `ERR = 1` any read returns data and changes nothing of the core (R125). -/
theorem perform_read_of_err {s : State} (he : s.err = true) (o : Offset) (w : Width) :
    ∃ (d : Word) (n : Nat), perform (.read o w) s = .next { s with readLog := d :: s.readLog, freeCount := n } := by
  rcases perform_read_cases o w s with ⟨v, hr⟩ | ⟨_, _, _, _, hr⟩ | hr
  · exact ⟨v, s.freeCount, hr⟩
  · exact ⟨_, _, by rw [hr, faultingRead_of_err he]⟩
  · exact ⟨_, _, by rw [hr, faultingRead_of_err he]⟩

/-- Settles O48: `perform_read_of_err` for any read, and the reads of O45 and of built tables do not look at `ERR`. -/
theorem readsAfterAFaultKeepTheRecord : Obligations.ReadsAfterAFaultKeepTheRecord := by
  intro s he
  obtain ⟨hcmd, hstatus, hctrl, heinfo, hoperand⟩ := registerReadsReturnTheirContents s
  exact ⟨perform_read_of_err he, hcmd, hstatus, hctrl, heinfo, hoperand, perform_read_entry_of_built⟩

end Sys2Proof.Machine

/-! PROOFS. Faults: the record the first one leaves, what raises each cause, when a command is stuck, and the faulted
state (60_exceptions.md R131, R134 to R136, R141, R145). -/

namespace Sys2Proof.Machine

/-! ### The record -/

/-- Settles O34: the first fault is recorded with its cause's code, and a later one changes nothing. -/
theorem raiseLatchesTheFirstFault : Obligations.RaiseLatchesTheFirstFault := fun info s =>
  ⟨fun he => ⟨raise_of_clear .illCmd info s he, raise_of_clear .notInit info s he, raise_of_clear .geometry info s he,
    raise_of_clear .range info s he, raise_of_clear .regAcc info s he⟩, fun he c => raise_of_err c info s he⟩

/-- Settles O35: at `TV = 0` each of the three is its `E_NOTINIT`, which at `ERR = 0` is recorded. -/
theorem nothingUsesTablesBeforeInit : Obligations.NothingUsesTablesBeforeInit := by
  refine fun s he htv => ⟨?_, ?_, fun o ho ha => ?_⟩
  · rw [exec_edc_of_unbuilt htv, raise_of_clear _ _ _ he]
    rfl
  · rw [exec_ecc_of_unbuilt htv, raise_of_clear _ _ _ he]
    rfl
  · rw [perform_read_entry_of_unbuilt htv ho ha, faultingRead_of_clear he]
    exact ⟨_, _, rfl⟩

/-! ### Geometry -/

/-- What the check turns away, with at least one lane and one sample a lane: a step past `size`, or a lane that starts
at or past it (R135). -/
theorem EccArgs.geomOk_eq_false_iff (g : EccArgs) :
    g.geomOk = false ↔ g.majorCount ≠ 0 ∧ g.minorCount ≠ 0
      ∧ (g.size < g.minorInc ∨ ∃ major, major < g.majorCount ∧ g.size ≤ g.laneStart major) := by
  rw [Bool.eq_false_iff, ne_eq, g.geomOk_iff]
  push Not
  rw [imp_iff_not_or, not_le]

/-- Settles O27: a geometry that R135 names fails the check, which O26 says raises the fault. -/
theorem mismatchedGeometryFaults : Obligations.MismatchedGeometryFaults := by
  intro s he htv hmajor hminor hbad
  have hg : s.x.eccArgs.geomOk = false := by
    simp only [EccArgs.geomOk_eq_false_iff, EccArgs.laneStart_eq]
    exact ⟨Nat.ne_of_gt hmajor, Nat.ne_of_gt hminor, hbad⟩
  exact geometryCheckIsTheQuantifiedOne.2 s he htv hg

/-! ### Ranges -/

theorem EccArgs.outOfRange_iff (g : EccArgs) :
    g.outOfRange = true ↔ g.src + g.size > Config.addressLimit ∨ g.dst + 2 * g.majorCount > Config.addressLimit := by
  simp [EccArgs.outOfRange]

/-- Past its checks EDC raises nothing. -/
theorem exec_edc_next_err {s t : State} (h : exec .edc s = .next t) (htv : s.tv = true)
    (hr : s.x.edcArgs.outOfRange = false) : t.err = s.err := by
  rcases execEdc_next_cases h with ⟨htv', -⟩ | ⟨-, hr', -⟩ | ⟨-, -, -, rfl⟩
  · simp [htv] at htv'
  · simp [hr] at hr'
  · rfl

/-- Past its checks ECC raises nothing. -/
theorem exec_ecc_next_err {s t : State} (h : exec .ecc s = .next t) (htv : s.tv = true)
    (hg : s.x.eccArgs.geomOk = true) (hr : s.x.eccArgs.outOfRange = false) : t.err = s.err := by
  rcases execEcc_next_cases h with ⟨htv', -⟩ | ⟨-, hg', -⟩ | ⟨-, -, hr', -⟩ | ⟨-, -, -, -, rfl⟩
  · simp [htv] at htv'
  · simp [hg] at hg'
  · simp [hr] at hr'
  · rfl

/-- Past its checks every address EDC accesses is one of the address space. -/
theorem EdcArgs.address_lt_of_mem_accesses {g : EdcArgs} (hr : g.outOfRange = false) :
    ∀ a ∈ g.accesses, a.address < Config.addressLimit := by
  obtain ⟨hsrc, hdst⟩ := g.outOfRange_eq_false.1 hr
  rw [EdcArgs.accesses, List.forall_mem_append]
  simp only [List.forall_mem_map, List.mem_range]
  exact ⟨fun k hk => by omega, fun k hk => by omega⟩

/-- Past its checks every address ECC accesses is one of the address space: a sample lies in the span, a parity byte
in the destination. -/
theorem EccArgs.address_lt_of_mem_accesses {g : EccArgs} (hg : g.geomOk = true) (hr : g.outOfRange = false) :
    ∀ a ∈ g.accesses, a.address < Config.addressLimit := by
  obtain ⟨hsrc, hdst⟩ := g.outOfRange_eq_false.1 hr
  refine (EccArgs.forall_mem_accesses_iff hg _).2 ⟨fun major k hmajor hk => ?_, fun k hk => by simp only; omega⟩
  obtain ⟨i, hi, haddr⟩ := EccArgs.exists_sampleAddress_eq hmajor hk
  simp only [haddr]
  omega

/-- Settles O36: the range checks are the inequalities of R136, each command's outcomes follow its checks in order,
and past them its accesses lie in the address space. -/
theorem rangesPastTheTopOfMemoryFault : Obligations.RangesPastTheTopOfMemoryFault := by
  refine fun s he htv => ⟨fun hout => ?_, fun hg hout => ?_, fun hsrc hdst t h => ?_, fun hg hsrc hdst t h => ?_,
    geometryCheckIsTheQuantifiedOne.2 s he htv, fun hr => ?_, fun hg hr => ?_⟩
  · rw [exec_edc_of_outOfRange htv (s.x.edcArgs.outOfRange_iff.2 hout), raise_of_clear _ _ _ he]
    rfl
  · rw [exec_ecc_of_outOfRange htv hg (s.x.eccArgs.outOfRange_iff.2 hout), raise_of_clear _ _ _ he]
    rfl
  · exact (exec_edc_next_err h htv (s.x.edcArgs.outOfRange_eq_false.2 ⟨hsrc, hdst⟩)).trans he
  · exact (exec_ecc_next_err h htv hg (s.x.eccArgs.outOfRange_eq_false.2 ⟨hsrc, hdst⟩)).trans he
  · exact EdcArgs.address_lt_of_mem_accesses hr
  · exact ⟨(Nat.le_add_left _ _).trans (s.x.eccArgs.outOfRange_eq_false.1 hr).1,
      EccArgs.address_lt_of_mem_accesses hg hr⟩

/-! ### Stuck commands -/

theorem Platform.not_admitsAll_iff (p : Platform) (as : List Access) :
    ¬ p.admitsAll as = true ↔ ∃ a ∈ as, p.admits a = false := by
  simp [Platform.admitsAll_iff]

/-- EDC is stuck at one place only: after its checks, where an access is not admitted. -/
theorem exec_edc_stuck_iff (s : State) :
    exec .edc s = .fault .stuck ↔ s.tv = true ∧ s.x.edcArgs.outOfRange = false
      ∧ ¬ s.platform.admitsAll s.x.edcArgs.accesses = true := by
  refine ⟨fun h => ?_, fun ⟨htv, hr, ha⟩ => exec_edc_of_not_admitted htv hr ha⟩
  cases htv : s.tv with
  | false => simp [exec_edc_of_unbuilt htv] at h
  | true =>
    cases hr : s.x.edcArgs.outOfRange with
    | true => simp [exec_edc_of_outOfRange htv hr] at h
    | false => exact ⟨rfl, rfl, fun ha => by simp [exec_edc_of_admitted htv hr ha] at h⟩

/-- ECC is stuck at one place only: after its checks, where an access is not admitted. -/
theorem exec_ecc_stuck_iff (s : State) :
    exec .ecc s = .fault .stuck ↔ s.tv = true ∧ s.x.eccArgs.geomOk = true ∧ s.x.eccArgs.outOfRange = false
      ∧ ¬ s.platform.admitsAll s.x.eccArgs.accesses = true := by
  refine ⟨fun h => ?_, fun ⟨htv, hg, hr, ha⟩ => exec_ecc_of_not_admitted htv hg hr ha⟩
  cases htv : s.tv with
  | false => simp [exec_ecc_of_unbuilt htv] at h
  | true =>
    cases hg : s.x.eccArgs.geomOk with
    | false => simp [exec_ecc_of_geomOk_false htv hg] at h
    | true =>
      cases hr : s.x.eccArgs.outOfRange with
      | true => simp [exec_ecc_of_outOfRange htv hg hr] at h
      | false => exact ⟨rfl, rfl, rfl, fun ha => by simp [exec_ecc_of_admitted htv hg hr ha] at h⟩

/-- Only a word that encodes a command stops a write of `CMD`, and it is the command that stops. -/
theorem writeCmd_fault_cases {w : Word} {s : State} {f : Fault} (h : writeCmd w s = .fault f) :
    ∃ i, w = encode i ∧ exec i s = .fault f := by
  cases hd : decode w with
  | command i => exact ⟨i, eq_encode_of_decode hd, by rwa [writeCmd_of_command hd] at h⟩
  | illegal v => simp [writeCmd, hd] at h

/-- Of the window's registers only `CMD` stops a write. -/
theorem writeReg_fault_cases {o : Offset} {v : Word} {s : State} {f : Fault} (h : writeReg o v s = .fault f) :
    o = 0x000#12 ∧ writeCmd v s = .fault f := by
  unfold writeReg at h
  split at h
  · exact ⟨eq_zero_of_windowReg_cmd ‹_›, h⟩
  all_goals simp at h

/-- The only transaction that stops is the write of a command to `CMD`. -/
theorem perform_fault_cases {a : Transaction} {s : State} {f : Fault} (h : perform a s = .fault f) :
    ∃ i, a = .write 0x000#12 .word (encode i) ∧ exec i s = .fault f := by
  cases a with
  | read o w => simp [perform] at h
  | write o w v =>
    cases he : s.err with
    | true => simp [perform_write_of_err he] at h
    | false =>
      cases ha : wholeAligned o w with
      | false => simp [perform_write_of_not_wholeAligned he ha] at h
      | true =>
        obtain ⟨rfl, haligned⟩ := (wholeAligned_iff o w).1 ha
        rw [perform_write_word he haligned] at h
        obtain ⟨rfl, hcmd⟩ := writeReg_fault_cases h
        obtain ⟨i, rfl, hexec⟩ := writeCmd_fault_cases hcmd
        exact ⟨i, rfl, hexec⟩

/-- Completing an event adds no stop and takes none away. -/
theorem completed_eq_fault_iff (o : Host.Outcome State Fault Refusal) (f : Fault) :
    completed o = .fault f ↔ o = .fault f := by
  cases o <;> simp [completed]

/-- A step stops only where the script's next event is the write of a command that stops (R145). -/
theorem step_fault_cases {s : State} {f : Fault} (h : step s = .fault f) :
    ∃ i, s.pending = some (cmdWrite (encode i)) ∧ exec i s = .fault f := by
  cases hp : s.pending with
  | none => simp [step_of_pending_none hp] at h
  | some e =>
    have hrun : runEvent e s = .fault f := by
      rwa [step, hp, completed_eq_fault_iff] at h
    cases e with
    | access a =>
      obtain ⟨i, rfl, hexec⟩ := perform_fault_cases hrun
      exact ⟨i, rfl, hexec⟩
    | storeByte | loadByte | reset => simp [runEvent] at hrun

/-- Settles O31: each engine has its one stuck outcome, and INIT, which has none, is no stuck step's command. -/
theorem stuckExactlyWhenAnAccessIsNotAdmitted : Obligations.StuckExactlyWhenAnAccessIsNotAdmitted := by
  intro s
  simp only [← Platform.not_admitsAll_iff]
  refine ⟨exec_edc_stuck_iff s, exec_ecc_stuck_iff s, fun f hf => ?_⟩
  obtain ⟨i, hp, hexec⟩ := step_fault_cases hf
  cases i with
  | init => simp [exec, execInit] at hexec
  | edc => exact .inl hp
  | ecc => exact .inr hp

/-! ### The faulted state -/

/-- At `ERR = 1` an event other than reset completes and leaves the whole core as it is: a write is ignored, a read
only returns data, and the host's own accesses are to memory (R141). -/
theorem runEvent_of_err {s : State} (he : s.err = true) {e : HostEvent} (hne : e ≠ .reset) :
    ∃ m log n, runEvent e s = .next { s with mem := m, readLog := log, freeCount := n } := by
  cases e with
  | access a =>
    cases a with
    | write o w v => exact ⟨_, _, _, perform_write_of_err he o w v⟩
    | read o w =>
      obtain ⟨d, n, hread⟩ := perform_read_of_err he o w
      exact ⟨_, _, _, hread⟩
  | storeByte a v => exact ⟨_, _, _, rfl⟩
  | loadByte a => exact ⟨_, _, _, rfl⟩
  | reset => exact absurd rfl hne

/-- Settles O37: with an event other than reset the step is `runEvent_of_err`, with reset it is `coreReset`. -/
theorem faultedStateIsLeftOnlyByReset : Obligations.FaultedStateIsLeftOnlyByReset := by
  intro s t he h
  refine ⟨fun hne => ?_, fun hreset => ?_⟩
  · rcases step_next_cases h with ⟨-, rfl⟩ | ⟨e, u, hp, hu, rfl⟩
    · exact ⟨he, rfl, rfl, rfl, rfl, rfl, rfl⟩
    · obtain ⟨m, log, n, hrun⟩ := runEvent_of_err he (e := e) fun heq => hne (heq ▸ hp)
      obtain rfl := Host.Outcome.next.inj (hrun.symm.trans hu)
      exact ⟨he, rfl, rfl, rfl, rfl, rfl, rfl⟩
  · obtain rfl := Host.Outcome.next.inj ((step_of_pending_reset hreset).symm.trans h)
    exact ⟨rfl, rfl⟩

end Sys2Proof.Machine

/-! PROOFS. The invariant: what a command can do to the state, and that every event keeps canonical memory, built
tables, a fault record of the list of causes and the script (10_state.md R22, R23, R25; 60_exceptions.md R132). -/

namespace Sys2Proof.Machine

/-! ### Fault records -/

@[simp] theorem toNat_offsetInfo (o : Offset) : (offsetInfo o).toNat = o.toNat := by
  rw [offsetInfo, BitVec.toNat_setWidth, Nat.mod_eq_of_lt (by omega)]

/-- An illegal word is none of the three command words. -/
theorem faultRecord_illCmd {w : Word} (h : ∀ i, decode w ≠ .command i) : faultRecord Cause.illCmd.code w :=
  .inl ⟨rfl, fun hw => h .init (hw ▸ decode_encode .init), fun hw => h .edc (hw ▸ decode_encode .edc),
    fun hw => h .ecc (hw ▸ decode_encode .ecc)⟩

/-- The offset of a table word. -/
theorem faultRecord_notInit {o : Offset} (hlo : 0x400 ≤ o.toNat) (ha : o.toNat % 4 = 0) :
    faultRecord Cause.notInit.code (offsetInfo o) := by
  refine .inr (.inl ⟨rfl, .inr (.inr ?_)⟩)
  rw [toNat_offsetInfo]
  omega

/-- Any offset of the window. -/
theorem faultRecord_regAcc (o : Offset) : faultRecord Cause.regAcc.code (offsetInfo o) := by
  refine .inr (.inr (.inr (.inr ⟨rfl, ?_⟩)))
  rw [toNat_offsetInfo]
  omega

/-- Before INIT an engine's command records its own word. -/
theorem faultRecord_notInit_command {i : Instr} (hi : i ≠ .init) : faultRecord Cause.notInit.code (encode i) := by
  cases i with
  | init => exact absurd rfl hi
  | edc => exact .inr (.inl ⟨rfl, .inl rfl⟩)
  | ecc => exact .inr (.inl ⟨rfl, .inr (.inl rfl)⟩)

theorem faultRecord_geometry_ecc : faultRecord Cause.geometry.code (encode .ecc) := .inr (.inr (.inl ⟨rfl, rfl⟩))

theorem faultRecord_range_command {i : Instr} (hi : i ≠ .init) : faultRecord Cause.range.code (encode i) := by
  cases i with
  | init => exact absurd rfl hi
  | edc => exact .inr (.inr (.inr (.inl ⟨rfl, .inl rfl⟩)))
  | ecc => exact .inr (.inr (.inr (.inl ⟨rfl, .inr rfl⟩)))

/-! ### What a command can do -/

/-- How many bytes from `DST` on a command stores: none for INIT, EDC's checksum, ECC's two halves. -/
def resultBytes (x : Operands) : Instr → Nat
  | .init => 0
  | .edc => 4
  | .ecc => 2 * x.majorCount.toNat

/-- Every way a command can answer a next state. -/
inductive CommandEffect (i : Instr) (s : State) : State → Prop
  /-- INIT at `TV = 1`. -/
  | idle : i = .init → CommandEffect i s s
  /-- INIT at `TV = 0`. -/
  | built : i = .init → CommandEffect i s { s with tables := builtTables, tv := true }
  /-- A check that failed. -/
  | raised (c : Cause) : i ≠ .init → faultRecord c.code (encode i) → CommandEffect i s (raise c (encode i) s)
  /-- A result stored from `DST` on. -/
  | stored (m : Memory) : i ≠ .init → (s.mem.wf = true → m.wf = true) →
      (∀ a, a < s.x.dst.toNat ∨ s.x.dst.toNat + resultBytes s.x i ≤ a → m.read a = s.mem.read a) →
      CommandEffect i s { s with mem := m }

theorem commandEffect_of_exec {i : Instr} {s t : State} (h : exec i s = .next t) : CommandEffect i s t := by
  cases i with
  | init =>
    rw [exec, execInit_eq, Host.Outcome.next.injEq] at h
    subst h
    split
    · exact .idle rfl
    · exact .built rfl
  | edc =>
    rcases execEdc_next_cases h with ⟨_, rfl⟩ | ⟨_, _, rfl⟩ | ⟨_, hr, _, rfl⟩
    · exact .raised .notInit (by decide) (faultRecord_notInit_command (by decide))
    · exact .raised .range (by decide) (faultRecord_range_command (by decide))
    · have hdst := (s.x.edcArgs.outOfRange_eq_false.1 hr).2
      exact .stored _ (by decide) (fun hm => Memory.wf_writeWordLE _ hm hdst)
        fun a ha => Memory.read_writeWordLE_ne _ _ ha
  | ecc =>
    rcases execEcc_next_cases h with ⟨_, rfl⟩ | ⟨_, _, rfl⟩ | ⟨_, _, _, rfl⟩ | ⟨_, _, hr, _, rfl⟩
    · exact .raised .notInit (by decide) (faultRecord_notInit_command (by decide))
    · exact .raised .geometry (by decide) faultRecord_geometry_ecc
    · exact .raised .range (by decide) (faultRecord_range_command (by decide))
    · have hdst := (s.x.eccArgs.outOfRange_eq_false.1 hr).2
      exact .stored _ (by decide) (fun hm => wf_runLanes _ _ _ hm (by omega) hdst)
        fun a ha => read_runLanes_ne _ _ _ _ (by omega) ha

/-! ### What keeps the invariant -/

/-- A fault of the list keeps the invariant: recorded at `ERR = 0`, kept out at `ERR = 1`. -/
theorem inv_raise {s : State} (hinv : Inv s) {c : Cause} {info : Word} (hrec : faultRecord c.code info) :
    Inv (raise c info s) := by
  cases he : s.err with
  | true => rwa [raise_of_err _ _ _ he]
  | false =>
    rw [raise_of_clear _ _ _ he]
    exact { hinv with noRecord := fun h => absurd h (by simp), record := fun _ => hrec }

theorem inv_faultingRead {s : State} (hinv : Inv s) {c : Cause} {info : Word} (hrec : faultRecord c.code info) :
    Inv (faultingRead c info s) := { inv_raise hinv hrec with }

theorem inv_coreReset {s : State} (hinv : Inv s) : Inv (coreReset s) where
  memWf := hinv.memWf
  tablesBuilt h := absurd h (by simp)
  noRecord _ := ⟨rfl, rfl⟩
  record h := absurd h (by simp)
  pcInScript := hinv.pcInScript

theorem exec_keeps_inv {i : Instr} {s t : State} (hinv : Inv s) (h : exec i s = .next t) : Inv t := by
  cases commandEffect_of_exec h with
  | idle => exact hinv
  | built => exact ⟨hinv.memWf, by simp, hinv.noRecord, hinv.record, hinv.pcInScript⟩
  | raised c _ hrec => exact inv_raise hinv hrec
  | stored m _ hwf => exact { hinv with memWf := hwf hinv.memWf }

theorem writeCmd_keeps_inv {w : Word} {s t : State} (hinv : Inv s) (h : writeCmd w s = .next t) : Inv t := by
  rcases writeCmd_next_cases h with ⟨i, -, hexec⟩ | ⟨hill, rfl⟩
  · exact exec_keeps_inv hinv hexec
  · exact inv_raise hinv (faultRecord_illCmd hill)

theorem perform_keeps_inv {a : Transaction} {s t : State} (hinv : Inv s) (h : perform a s = .next t) : Inv t := by
  cases a with
  | write o w v =>
    rcases perform_write_next_cases h with
      ⟨_, rfl⟩ | ⟨_, _, _, hcmd⟩ | ⟨_, _, _, rfl⟩ | ⟨_, _, r, _, rfl⟩ | ⟨_, rfl⟩
    · exact hinv
    · exact writeCmd_keeps_inv hinv hcmd
    · exact { hinv with }
    · exact { hinv with }
    · exact inv_raise hinv (faultRecord_regAcc o)
  | read o w =>
    rcases perform_read_cases o w s with ⟨v, hr⟩ | ⟨_, _, hlo, ha, hr⟩ | hr
    all_goals obtain rfl := Host.Outcome.next.inj (hr.symm.trans h)
    · exact { hinv with }
    · exact inv_faultingRead hinv (faultRecord_notInit hlo ha)
    · exact inv_faultingRead hinv (faultRecord_regAcc o)

theorem runEvent_keeps_inv {e : HostEvent} {s t : State} (hinv : Inv s) (h : runEvent e s = .next t) : Inv t := by
  cases e with
  | access a => exact perform_keeps_inv hinv h
  | storeByte a v =>
    obtain rfl := Host.Outcome.next.inj h
    exact { hinv with memWf := Memory.wf_write v hinv.memWf a.isLt }
  | loadByte a => obtain rfl := Host.Outcome.next.inj h; exact { hinv with }
  | reset => obtain rfl := Host.Outcome.next.inj h; exact inv_coreReset hinv

/-! ### The script -/

/-- The script and its index are as before. -/
def KeepsScript (s t : State) : Prop := t.program = s.program ∧ t.pc = s.pc

theorem writeCmd_keeps_script {w : Word} {s t : State} (h : writeCmd w s = .next t) : KeepsScript s t := by
  rcases writeCmd_next_cases h with ⟨i, -, hexec⟩ | ⟨-, rfl⟩
  · obtain ⟨-, -, -, hprogram, hpc, -, -⟩ := exec_next_keeps hexec
    exact ⟨hprogram, hpc⟩
  · exact ⟨raise_program .., raise_pc ..⟩

theorem perform_keeps_script {a : Transaction} {s t : State} (h : perform a s = .next t) : KeepsScript s t := by
  cases a with
  | write o w v =>
    rcases perform_write_next_cases h with
      ⟨_, rfl⟩ | ⟨_, _, _, hcmd⟩ | ⟨_, _, _, rfl⟩ | ⟨_, _, r, _, rfl⟩ | ⟨_, rfl⟩
    case inr.inl => exact writeCmd_keeps_script hcmd
    all_goals simp [KeepsScript]
  | read o w =>
    rcases perform_read_cases o w s with ⟨v, hr⟩ | ⟨_, _, _, _, hr⟩ | hr
    all_goals
      obtain rfl := Host.Outcome.next.inj (hr.symm.trans h)
      simp [KeepsScript]

/-- An event leaves the script and its index alone; only its completion advances `pc`. -/
theorem runEvent_keeps_script {e : HostEvent} {s t : State} (h : runEvent e s = .next t) : KeepsScript s t := by
  cases e with
  | access a => exact perform_keeps_script h
  | storeByte | loadByte | reset => obtain rfl := Host.Outcome.next.inj h; exact ⟨rfl, rfl⟩

/-- With an event pending, `pc` stands before the script's end. -/
theorem pc_lt_of_pending {s : State} {e : HostEvent} (hp : s.pending = some e) : s.pc < s.program.length :=
  (List.getElem?_eq_some_iff.1 hp).1

theorem pending_eq_none_iff (s : State) : s.pending = none ↔ s.program.length ≤ s.pc := List.getElem?_eq_none_iff

/-! ### The obligations -/

/-- Settles O59: an event keeps the invariant by `runEvent_keeps_inv`, and the advance stays in the script because the
event stood before its end. -/
theorem everyStepKeepsInv : Obligations.EveryStepKeepsInv := by
  intro s t hinv h
  rcases step_next_cases h with ⟨-, rfl⟩ | ⟨e, u, hp, hu, rfl⟩
  · exact hinv
  · obtain ⟨hprogram, hpc⟩ := runEvent_keeps_script hu
    have hlt := pc_lt_of_pending hp
    exact { runEvent_keeps_inv hinv hu with
      pcInScript := by rw [advance_pc, advance_program, hprogram, hpc]; exact hlt }

/-- Settles O58: at reset memory is empty, nothing is recorded, the tables are not valid and the script is empty. -/
theorem resetStateMeetsInv : Obligations.ResetStateMeetsInv where
  memWf := rfl
  tablesBuilt h := absurd h (by decide)
  noRecord _ := ⟨rfl, rfl⟩
  record h := absurd h (by decide)
  pcInScript := Nat.le_refl 0

/-- Settles O53: an event that completes has left the script alone and then advances `pc`; at the script's end none is
pending. -/
theorem scriptAdvancesOneEventAStep : Obligations.ScriptAdvancesOneEventAStep := by
  intro s t h
  rcases step_next_cases h with ⟨hp, rfl⟩ | ⟨e, u, hp, hu, rfl⟩
  · have hend := (pending_eq_none_iff _).1 hp
    exact ⟨rfl, fun hlt => absurd hlt (by omega), fun _ => rfl⟩
  · obtain ⟨hprogram, hpc⟩ := runEvent_keeps_script hu
    have hlt := pc_lt_of_pending hp
    exact ⟨hprogram, fun _ => by rw [advance_pc, hpc], fun hend => absurd hend (by omega)⟩

end Sys2Proof.Machine

/-! PROOFS. What commands leave unchanged, that faults are precise, which events write an operand register, and that
every step answers under the default `MEM_ADMIT` (10_state.md R16, R24; 60_exceptions.md R140, R145). -/

namespace Sys2Proof.Machine

/-! ### Precision and frames, by the effects of a command -/

/-- Settles O33: of a command's effects only a failed check raises, and it does nothing else. -/
theorem faultsArePreciseAndTotal : Obligations.FaultsArePreciseAndTotal := by
  intro i s t he h
  cases commandEffect_of_exec h with
  | idle | built | stored => exact .inr ⟨he, rfl, rfl⟩
  | raised c =>
    rw [raise_of_clear _ _ _ he]
    exact .inl ⟨rfl, rfl⟩

/-- A fault that does not change `ERR` does not change the record. -/
theorem raise_record_of_err_eq {c : Cause} {info : Word} {s : State} (h : (raise c info s).err = s.err) :
    (raise c info s).cause = s.cause ∧ (raise c info s).einfo = s.einfo := by
  rw [raise_err] at h
  rw [raise_of_err _ _ _ h.symm]
  exact ⟨rfl, rfl⟩

/-- Settles O38: `exec_next_keeps` for what no command touches, and the rest effect by effect. -/
theorem commandsChangeNothingElse : Obligations.CommandsChangeNothingElse := by
  intro i s t h
  obtain ⟨hx, hform, hplatform, hprogram, hpc, hlog, hfree⟩ := exec_next_keeps h
  refine ⟨hx, hform, hplatform, hprogram, hpc, hlog, hfree, ?_⟩
  cases commandEffect_of_exec h with
  | idle hi | built hi =>
    exact ⟨fun hne => absurd hi hne, fun _ => ⟨rfl, rfl⟩, fun _ => ⟨rfl, rfl⟩, fun _ _ _ => rfl, fun _ _ _ => rfl⟩
  | raised c hne =>
    exact ⟨fun _ => ⟨raise_tables .., raise_tv ..⟩, fun hi => absurd hi hne, raise_record_of_err_eq,
      fun _ a _ => by rw [raise_mem], fun _ a _ => by rw [raise_mem]⟩
  | stored m hne _ hframe =>
    exact ⟨fun _ => ⟨rfl, rfl⟩, fun hi => absurd hi hne, fun _ => ⟨rfl, rfl⟩, fun hi => by subst hi; exact hframe,
      fun hi => by subst hi; exact hframe⟩

/-! ### The policy flag -/

/-- The same machine with another `FORM2_EDC`. -/
def State.withForm2Edc (s : State) (b : Bool) : State := { s with form2Edc := b }

/-- An outcome with another `FORM2_EDC` in its next state. -/
def outcomeWithForm2Edc (b : Bool) : Host.Outcome State Fault Refusal → Host.Outcome State Fault Refusal
  | .next t => .next (t.withForm2Edc b)
  | .fault f => .fault f
  | .refused r => .refused r

theorem raise_withForm2Edc (c : Cause) (info : Word) (s : State) (b : Bool) :
    raise c info (s.withForm2Edc b) = (raise c info s).withForm2Edc b := by
  cases h : s.err with
  | false => rw [raise_of_clear c info s h, raise_of_clear c info (s.withForm2Edc b) h]; rfl
  | true => rw [raise_of_err c info s h, raise_of_err c info (s.withForm2Edc b) h]

/-- Commands carry `FORM2_EDC` along and do not look at it. -/
theorem exec_withForm2Edc (i : Instr) (s : State) (b : Bool) :
    exec i (s.withForm2Edc b) = outcomeWithForm2Edc b (exec i s) := by
  cases i with
  | init =>
    rw [exec, exec, execInit_eq, execInit_eq]
    cases htv : s.tv <;> simp [outcomeWithForm2Edc, State.withForm2Edc, htv]
  | edc =>
    simp only [exec, execEdc, raise_withForm2Edc, apply_ite (outcomeWithForm2Edc b)]
    rfl
  | ecc =>
    simp only [exec, execEcc, raise_withForm2Edc, apply_ite (outcomeWithForm2Edc b)]
    rfl

/-- Settles O40: `exec_withForm2Edc`, read for next states and for stuck commands. -/
theorem formFlagHasNoEffectOnCommands : Obligations.FormFlagHasNoEffectOnCommands := by
  refine ⟨rfl, fun i s b => ⟨fun t h => ?_, fun f h => ?_⟩⟩
  all_goals
    have hexec := exec_withForm2Edc i s b
    rw [h] at hexec
    exact hexec

/-! ### Operand registers -/

/-- The operand registers' offsets are the only ones that name them. -/
theorem eq_offset_of_windowReg_operand {o : Offset} {r : OperandReg} (h : windowReg o = .operand r) :
    o = BitVec.ofNat 12 r.offset := by
  have hlt : o.toNat < 0x400 := by
    by_contra hge
    obtain ⟨n, i, hw⟩ := exists_entry_of_windowReg (o := o) (by omega)
    simp [hw] at h
  rw [windowReg, if_pos hlt] at h
  unfold controlReg at h
  split at h <;> cases h
  all_goals exact BitVec.eq_of_toNat_eq ‹_›

/-- A transaction keeps the operand registers, unless it is the accepted write of one. -/
theorem perform_next_operands {a : Transaction} {s t : State} (h : perform a s = .next t) :
    t.x = s.x
    ∨ ∃ r v, s.err = false ∧ a = .write (BitVec.ofNat 12 r.offset) .word v ∧ t.x = s.x.set r v := by
  cases a with
  | write o w v =>
    rcases perform_write_next_cases h with
      ⟨_, rfl⟩ | ⟨_, _, _, hcmd⟩ | ⟨_, _, _, rfl⟩ | ⟨he, ha, r, hreg, rfl⟩ | ⟨_, rfl⟩
    · exact .inl rfl
    · rcases writeCmd_next_cases hcmd with ⟨i, -, hexec⟩ | ⟨-, rfl⟩
      · obtain ⟨hx, -⟩ := exec_next_keeps hexec
        exact .inl hx
      · exact .inl (raise_x ..)
    · exact .inl rfl
    · obtain ⟨rfl, -⟩ := (wholeAligned_iff o w).1 ha
      obtain rfl := eq_offset_of_windowReg_operand hreg
      exact .inr ⟨r, v, he, rfl, rfl⟩
    · exact .inl (raise_x ..)
  | read o w =>
    rcases perform_read_cases o w s with ⟨v, hr⟩ | ⟨_, _, _, _, hr⟩ | hr
    all_goals
      obtain rfl := Host.Outcome.next.inj (hr.symm.trans h)
      exact .inl (by simp)

/-- A step keeps the operand registers, is a reset, or is the accepted write of one. -/
theorem step_next_operands {s t : State} (h : step s = .next t) :
    t.x = s.x
    ∨ s.pending = some .reset
    ∨ ∃ r v, s.err = false ∧ s.pending = some (.access (.write (BitVec.ofNat 12 r.offset) .word v))
        ∧ t.x = s.x.set r v := by
  rcases step_next_cases h with ⟨_, rfl⟩ | ⟨e, u, hp, hu, rfl⟩
  · exact .inl rfl
  · cases e with
    | access a =>
      rcases perform_next_operands hu with hx | ⟨r, v, he, rfl, hx⟩
      · exact .inl hx
      · exact .inr (.inr ⟨r, v, he, hp, hx⟩)
    | storeByte | loadByte => obtain rfl := Host.Outcome.next.inj hu; exact .inl rfl
    | reset => exact .inr (.inl hp)

/-- Settles O39: commands keep the registers, and of the three things a step can do with them the write of another
register is ruled out by `Operands.get_set`. -/
theorem onlyTheHostWritesOperands : Obligations.OnlyTheHostWritesOperands := by
  refine ⟨fun i s t h r => ?_, fun s t r h hne => ?_⟩
  · obtain ⟨hx, -⟩ := exec_next_keeps h
    rw [hx]
  · rcases step_next_operands h with hx | hp | ⟨q, v, he, hp, hx⟩
    · exact absurd (by rw [hx]) hne
    · exact .inl hp
    · rw [hx, Operands.get_set] at hne ⊢
      by_cases hq : r = q
      · subst hq
        rw [if_pos rfl]
        exact .inr ⟨he, hp⟩
      · exact absurd (if_neg hq) hne

/-! ### Every step answers -/

/-- An outcome that is no refusal: a next state or the stuck fault. -/
def NotRefused (o : Host.Outcome State Fault Refusal) : Prop := (∃ t, o = .next t) ∨ o = .fault .stuck

theorem exec_notRefused (i : Instr) (s : State) : NotRefused (exec i s) := by
  cases i with
  | init => exact .inl ⟨_, rfl⟩
  | edc =>
    simp only [exec, execEdc]
    split_ifs
    case neg => exact .inr rfl
    all_goals exact .inl ⟨_, rfl⟩
  | ecc =>
    simp only [exec, execEcc]
    split_ifs
    case neg => exact .inr rfl
    all_goals exact .inl ⟨_, rfl⟩

theorem writeReg_notRefused (o : Offset) (v : Word) (s : State) : NotRefused (writeReg o v s) := by
  unfold writeReg
  cases windowReg o with
  | cmd =>
    show NotRefused (writeCmd v s)
    cases hd : decode v with
    | command i => rw [writeCmd_of_command hd]; exact exec_notRefused i s
    | illegal w => rw [writeCmd, hd]; exact .inl ⟨_, rfl⟩
  | ctrl | operand | status | einfo | reserved | entry => exact .inl ⟨_, rfl⟩

theorem runEvent_notRefused (e : HostEvent) (s : State) : NotRefused (runEvent e s) := by
  cases e with
  | access a =>
    cases a with
    | read o w => exact .inl ⟨_, rfl⟩
    | write o w v =>
      show NotRefused (perform (.write o w v) s)
      simp only [perform]
      split_ifs
      · exact .inl ⟨_, rfl⟩
      · exact writeReg_notRefused o v s
      · exact .inl ⟨_, rfl⟩
  | storeByte | loadByte | reset => exact .inl ⟨_, rfl⟩

theorem step_notRefused (s : State) : NotRefused (step s) := by
  cases hp : s.pending with
  | none => exact .inl ⟨s, step_of_pending_none hp⟩
  | some e =>
    rcases runEvent_notRefused e s with ⟨t, ht⟩ | hstuck
    · exact .inl ⟨_, step_of_runEvent hp ht⟩
    · refine .inr ?_
      simp only [step, hp]
      rw [completed_eq_fault_iff]
      exact hstuck

/-- Under the default `MEM_ADMIT` no command is stuck. -/
theorem exec_ne_stuck_of_default {s : State} (hplat : s.platform.refused = []) (i : Instr) :
    exec i s ≠ .fault .stuck := by
  intro h
  cases i with
  | init => simp [exec, execInit] at h
  | edc =>
    obtain ⟨-, -, hna⟩ := (exec_edc_stuck_iff s).1 h
    exact hna (Platform.admitsAll_of_default hplat _)
  | ecc =>
    obtain ⟨-, -, -, hna⟩ := (exec_ecc_stuck_iff s).1 h
    exact hna (Platform.admitsAll_of_default hplat _)

/-- Settles O32: no outcome is a refusal, and a stuck step is a stuck command, which the default `MEM_ADMIT` rules
out. -/
theorem everyStepAnswersUnlessStuck : Obligations.EveryStepAnswersUnlessStuck := by
  refine ⟨fun s hplat => ?_, fun i s hplat => ?_, fun s r hr => ?_⟩
  · refine (step_notRefused s).resolve_right fun hstuck => ?_
    obtain ⟨i, -, hexec⟩ := step_fault_cases hstuck
    exact exec_ne_stuck_of_default hplat i hexec
  · exact (exec_notRefused i s).resolve_right (exec_ne_stuck_of_default hplat i)
  · rcases step_notRefused s with ⟨t, ht⟩ | hstuck
    · simp [ht] at hr
    · simp [hstuck] at hr

end Sys2Proof.Machine

/-! PROOFS. Encodings of commands, registers and flags, memory as data, and how a script's events are performed
(10_state.md sections 4, 5 and 7; 20_memory.md R41, R55; 30_encoding.md R63, R68). -/

namespace Sys2Proof.Machine

/-! ### Command words -/

/-- Settles O1: decoding undoes encoding, so equal words are words of one command. -/
theorem decodeOfEncodeIsTheCommand : Obligations.DecodeOfEncodeIsTheCommand := by
  refine fun i => ⟨decode_encode i, by cases i <;> decide, fun j h => ?_⟩
  have hij := (decode_encode i).symm.trans (h ▸ decode_encode j)
  exact Decoded.command.inj hij

/-- Settles O4: the words of the map are those of `encode`, and the other three encode nothing. -/
theorem wordsOfTheMapDecodeAsWritten : Obligations.WordsOfTheMapDecodeAsWritten := by
  have hill : ∀ w : Word, w ≠ encode .init → w ≠ encode .edc → w ≠ encode .ecc → decode w = .illegal w :=
    fun w hinit hedc hecc => decode_eq_illegal fun i => by cases i <;> assumption
  exact ⟨decode_encode .init, decode_encode .edc, decode_encode .ecc, hill _ (by decide) (by decide) (by decide),
    hill _ (by decide) (by decide) (by decide), hill _ (by decide) (by decide) (by decide)⟩

theorem decode_of_decodeTableWord {nbits w : Nat} {i : Instr} (h : decodeTableWord nbits w = some i) :
    decode (BitVec.ofNat 32 (w % 2 ^ nbits)) = .command i := by
  unfold decodeTableWord at h
  split at h
  · rename_i hd
    rw [hd, Option.some.inj h]
  · exact absurd h (by simp)

/-- Settles O6: the inserted event is pending, it is a `CMD` write, and its word decodes to the command. -/
theorem placedCommandRunsNext : Obligations.PlacedCommandRunsNext := by
  intro s nbits w i he hdec
  have hstep : step (s.withFetchWord nbits w) = completed (exec i (s.withFetchWord nbits w)) := by
    rw [step_of_pending_cmdWrite (s := s.withFetchWord nbits w) he (pending_insertEvent _ s),
      writeCmd_of_command (decode_of_decodeTableWord hdec)]
  exact ⟨fun t ht => by rw [hstep, ht]; rfl, fun f hf => by rw [hstep, hf]; rfl, rfl⟩

/-! ### The register map and `STATUS` -/

/-- Settles O50: each named offset by its lemma, and nothing is mapped in between. -/
theorem namedOffsetsDecodeToTheirRegisters : Obligations.NamedOffsetsDecodeToTheirRegisters := by
  refine ⟨windowReg_operand, fun n i => ⟨windowReg_entry n i, ?_⟩, rfl, rfl, rfl, rfl,
    fun o hlo hhi => windowReg_reserved hlo (by omega)⟩
  have hi := i.isLt
  cases n <;> simp only [RegName.offset, TableName.windowBase] <;> omega

/-- A bit of `STATUS`, by the three fields it is put together from. -/
theorem getLsbD_statusWord (s : State) (k : Nat) :
    (statusWord s).getLsbD k
      = (decide (k = 0) && s.tv || decide (k = 1) && s.err || decide (4 ≤ k) && s.cause.getLsbD (k - 4)) := by
  simp only [statusWord, BitVec.getLsbD_or, BitVec.getLsbD_setWidth, BitVec.getLsbD_shiftLeft, BitVec.getLsbD_ofBool]
  rcases Nat.lt_or_ge k 8 with hk | hk
  · interval_cases k <;> simp
  · have hcause : s.cause.getLsbD (k - 4) = false := BitVec.getLsbD_of_ge _ _ (by omega)
    simp [hcause, show k ≠ 0 by omega, show k ≠ 1 by omega, show k - 1 ≠ 0 by omega]

/-- Settles O51: each bit of `STATUS` is `getLsbD_statusWord` at its number. -/
theorem statusBitsAreTheFlags : Obligations.StatusBitsAreTheFlags := by
  refine fun s => ⟨?_, ?_, fun k hk => ?_, fun k hk => ?_⟩
  · rw [getLsbD_statusWord]
    simp
  · rw [getLsbD_statusWord]
    simp
  · rw [getLsbD_statusWord]
    simp [show 4 + k ≠ 1 by omega]
  · rw [getLsbD_statusWord]
    obtain rfl | rfl | hk := hk
    · simp
    · simp
    · simp [show k ≠ 0 by omega, show k ≠ 1 by omega, BitVec.getLsbD_of_ge s.cause (k - 4) (by omega)]

/-! ### Memory -/

/-- Settles O54: the laws of a byte write. -/
theorem memoryReadsReturnTheLatestWrite : Obligations.MemoryReadsReturnTheLatestWrite := fun m _ v hm ha =>
  ⟨Memory.wf_write v hm ha, Memory.read_write_eq v hm, fun _ hb => Memory.read_write_ne m v hb⟩

/-- Past the address space nothing is listed. -/
theorem Memory.read_of_ge {m : Memory} {lo a : Nat} (h : Memory.wfFrom lo m = true) (ha : Config.addressLimit ≤ a) :
    m.read a = Memory.unlisted := by
  induction m generalizing lo with
  | nil => rfl
  | cons c m ih =>
    obtain ⟨k, v⟩ := c
    simp only [Memory.wfFrom, Bool.and_eq_true, decide_eq_true_eq] at h
    obtain ⟨⟨⟨-, hk⟩, -⟩, hm⟩ := h
    rw [Memory.read, if_neg (by omega)]
    exact ih hm

/-- Memories in canonical form are the same data exactly when every address of the address space reads alike. -/
theorem Memory.eq_iff_read_eq {m n : Memory} (hm : m.wf = true) (hn : n.wf = true) :
    m = n ↔ ∀ a, a < Config.addressLimit → m.read a = n.read a := by
  refine ⟨fun h _ _ => by rw [h], fun h => Memory.ext hm hn fun a => ?_⟩
  rcases Nat.lt_or_ge a Config.addressLimit with hlt | hge
  · exact h a hlt
  · rw [Memory.read_of_ge hm hge, Memory.read_of_ge hn hge]

section
variable {m : Memory} (hm : m.wf = true) {a : Nat} (ha : a < Config.addressLimit)
include hm ha

/-- Writing back what is there changes nothing. -/
theorem Memory.write_read_self : m.write a (m.read a) = m := by
  refine Memory.ext (Memory.wf_write _ hm ha) hm fun c => ?_
  rw [Memory.read_write _ hm]
  split_ifs with hc
  · rw [hc]
  · rfl

/-- The later of two writes to one address counts. -/
theorem Memory.write_write_self (v w : Byte) : (m.write a v).write a w = m.write a w := by
  have hv := Memory.wf_write v hm ha
  refine Memory.ext (Memory.wf_write w hv ha) (Memory.wf_write w hm ha) fun c => ?_
  rw [Memory.read_write _ hv, Memory.read_write _ hm, Memory.read_write _ hm]
  split_ifs <;> rfl

/-- Writes to different addresses commute. -/
theorem Memory.write_write_comm {b : Nat} (hb : b < Config.addressLimit) (hab : a ≠ b) (v w : Byte) :
    (m.write a v).write b w = (m.write b w).write a v := by
  have hv := Memory.wf_write v hm ha
  have hw := Memory.wf_write w hm hb
  refine Memory.ext (Memory.wf_write w hv hb) (Memory.wf_write v hw ha) fun c => ?_
  rw [Memory.read_write _ hv, Memory.read_write _ hm, Memory.read_write _ hw, Memory.read_write _ hm]
  split_ifs with hcb hca
  · exact absurd (hca.symm.trans hcb) hab
  all_goals rfl

end

/-- Settles O55: extensionality of canonical memory, and its three consequences. -/
theorem equalMemoriesAreEqualData : Obligations.EqualMemoriesAreEqualData := fun _ _ hm hn =>
  ⟨Memory.eq_iff_read_eq hm hn, fun _ _ v w ha hb =>
    ⟨Memory.write_read_self hm ha, Memory.write_write_self hm ha v w,
      fun hab => Memory.write_write_comm hm ha hb hab v w⟩⟩

/-- Settles O56: both events complete at once; what the store leaves is the law of a byte write. -/
theorem hostMemoryAccessesStoreAndReturnBytes : Obligations.HostMemoryAccessesStoreAndReturnBytes := by
  refine fun s a v => ⟨fun hm hp => ?_, fun hp => step_of_runEvent hp rfl⟩
  exact ⟨s.mem.write a.toNat v, step_of_runEvent hp rfl, Memory.read_write_eq v hm, fun b hb => Memory.read_write_ne _ v hb⟩

end Sys2Proof.Machine

/-! PROOFS. The built tables in the field GF, and the EDC as a linear code: its table, its checksum, and the remainder
modulo the generator polynomial that it is (40_table_builder.md R88, R89; 41_edc_engine.md R95, R97, R98). -/

namespace Sys2Proof.Machine

/-! ### The byte tables -/

set_option maxRecDepth 20000 in
/-- Doubling in GF has kernel 0. -/
theorem eq_zero_of_eccForward_eq_zero : ∀ i : Byte, eccForward i = 0#8 → i = 0#8 := by decide

/-- Doubling in GF is injective, being linear. -/
theorem eccForward_injective : Function.Injective eccForward := fun i k h => by
  have hxor : eccForward (i ^^^ k) = 0#8 := by rw [eccForward_xor, h, BitVec.xor_self]
  exact BitVec.xor_eq_zero_iff.1 (eq_zero_of_eccForward_eq_zero _ hxor)

theorem thirdOf_injective : Function.Injective thirdOf := Function.LeftInverse.injective eccKey_thirdOf

/-- Settles O10: by the invariant the tables are the built ones. -/
theorem byteTablesMultiplyInTheField : Obligations.ByteTablesMultiplyInTheField := by
  intro s hinv htv i
  simp only [hinv.tablesBuilt htv, eccFAt_builtTables, eccBAt_builtTables]
  exact ⟨eccForward_eq_gfMul i, gfMul_three_thirdOf i, fun k h => eccForward_injective h,
    fun k h => thirdOf_injective h⟩

/-- Settles O12: by the invariant the entries are `edcEntry`, which is linear. -/
theorem edcTableIsLinear : Obligations.EdcTableIsLinear := by
  intro s hinv htv
  simp only [hinv.tablesBuilt htv, edcTAt_builtTables]
  exact ⟨edcEntry_xor, by decide, by decide⟩

/-! ### The checksum is linear -/

/-- Two accumulator steps in parallel. -/
theorem edcStep_builtTables_xor (u v : Word) (b c : Byte) :
    edcStep builtTables (u ^^^ v) (b ^^^ c) = edcStep builtTables u b ^^^ edcStep builtTables v c := by
  have hindex : (u ^^^ v) ^^^ (b ^^^ c).setWidth 32 = (u ^^^ b.setWidth 32) ^^^ (v ^^^ c.setWidth 32) := by
    rw [BitVec.setWidth_xor]
    ac_rfl
  simp only [edcStep, edcTAt_builtTables]
  rw [hindex, BitVec.setWidth_xor, edcEntry_xor, BitVec.ushiftRight_xor_distrib]
  ac_rfl

theorem foldl_edcStep_zipWith_xor {bs cs : List Byte} (hlen : bs.length = cs.length) (u v : Word) :
    (List.zipWith (fun b c => b ^^^ c) bs cs).foldl (edcStep builtTables) (u ^^^ v)
      = bs.foldl (edcStep builtTables) u ^^^ cs.foldl (edcStep builtTables) v := by
  induction bs generalizing cs u v with
  | nil =>
    obtain rfl := List.length_eq_zero_iff.1 hlen.symm
    rfl
  | cons b bs ih =>
    cases cs with
    | nil => exact absurd hlen (by simp)
    | cons c cs =>
      simp only [List.zipWith_cons_cons, List.foldl_cons]
      rw [edcStep_builtTables_xor]
      exact ih (by simpa using hlen) _ _

/-- Settles O18: zeros leave the initial 0 alone, the steps of two strings run in parallel, and one step from 0 looks
up the byte itself. -/
theorem edcIsLinearAndIgnoresLeadingZeros : Obligations.EdcIsLinearAndIgnoresLeadingZeros := by
  refine ⟨edcOf_builtTables_replicate_zero_append, fun bs cs hlen => ?_, fun v => ?_⟩
  · simp only [edcOf_eq_foldl]
    rw [← foldl_edcStep_zipWith_xor hlen, BitVec.xor_self]
  · simp [edcOf, BitVec.setWidth_setWidth_of_le]

/-! ### What the checksum depends on -/

theorem edcOf_congr {t u : Tables} (h : t.edcT = u.edcT) (bs : List Byte) : edcOf t bs = edcOf u bs := by
  simp only [edcOf, Tables.edcTAt, h]

theorem bytesAt_congr {m n : Memory} {a len : Nat} (h : ∀ k, k < len → m.read (a + k) = n.read (a + k)) :
    bytesAt m a len = bytesAt n a len := List.map_congr_left fun k hk => h k (List.mem_range.1 hk)

/-- A command that answers with `ERR = 0` has stored the checksum of its source at `DST`. -/
theorem exec_edc_next_of_clear {s t : State} (h : exec .edc s = .next t) (hc : t.err = false) :
    s.x.edcArgs.outOfRange = false
      ∧ t.mem = s.mem.writeWordLE s.x.edcArgs.dst
          (edcOf s.tables (bytesAt s.mem s.x.edcArgs.src s.x.edcArgs.len)) := by
  rcases execEdc_next_cases h with ⟨_, rfl⟩ | ⟨_, _, rfl⟩ | ⟨_, hr, _, rfl⟩
  case inr.inr => exact ⟨hr, by rw [edcChecksum_eq_edcOf]⟩
  all_goals exact absurd hc (by simp)

/-- Settles O20: both runs store the checksum of one byte string under one table. -/
theorem edcResultDependsOnlyOnTableAndSource : Obligations.EdcResultDependsOnlyOnTableAndSource := by
  intro s u t v hs hu _ _ htab hx hsrc ht hv hte hve k hk
  obtain ⟨hr, htm⟩ := exec_edc_next_of_clear ht hte
  obtain ⟨-, hvm⟩ := exec_edc_next_of_clear hv hve
  have hdst := (s.x.edcArgs.outOfRange_eq_false.1 hr).2
  have hbytes : bytesAt s.mem s.x.edcArgs.src s.x.edcArgs.len = bytesAt u.mem s.x.edcArgs.src s.x.edcArgs.len :=
    bytesAt_congr hsrc
  rw [htm, hvm, ← hx, ← edcOf_congr htab, ← hbytes]
  exact (Memory.read_writeWordLE _ hs hdst hk).trans (Memory.read_writeWordLE _ hu hdst hk).symm

/-! ### The table steps as single-bit rounds -/

/-- A bit as bit 0 of a word. -/
def bitWord (b : Bool) : Word := (BitVec.ofBool b).setWidth 32

/-- One message bit: into bit 0 of the accumulator, then one round of the reduction. -/
def edcBit (acc : Word) (b : Bool) : Word := edcRound (acc ^^^ bitWord b)

/-- A round that tests a 0 only shifts. -/
theorem edcRound_of_getLsbD_zero {e : Word} (h : e[0] = false) : edcRound e = e >>> 1 := by
  rw [edcRound, h]
  rfl

/-- Bit 0 of a word goes into the round as a message bit, the rest is only shifted. -/
theorem edcRound_xor_eq (acc v : Word) : edcRound (acc ^^^ v) = edcBit acc v[0] ^^^ v >>> 1 := by
  have hlow : (v ^^^ bitWord v[0])[0] = false := by simp [bitWord]
  have hshift : (v ^^^ bitWord v[0]) >>> 1 = v >>> 1 := by
    rw [BitVec.ushiftRight_xor_distrib]
    cases v[0] <;> simp [bitWord]
  have hsplit : acc ^^^ v = (acc ^^^ bitWord v[0]) ^^^ (v ^^^ bitWord v[0]) := by
    rw [BitVec.xor_comm v, ← BitVec.xor_assoc, BitVec.xor_assoc acc, BitVec.xor_self, BitVec.xor_zero]
  rw [hsplit, edcRound_xor, edcRound_of_getLsbD_zero hlow, hshift, edcBit]

/-- `n` rounds take in the low `n` bits of a word one by one and shift the rest. -/
theorem edcRounds_xor_eq_foldl (n : Nat) (acc v : Word) :
    edcRounds n (acc ^^^ v) = ((List.range n).map v.getLsbD).foldl edcBit acc ^^^ v >>> n := by
  induction n generalizing acc v with
  | zero => simp [edcRounds]
  | succ n ih =>
    have hbits : (v >>> 1).getLsbD = v.getLsbD ∘ Nat.succ := by
      funext k
      rw [BitVec.getLsbD_ushiftRight, Nat.add_comm]
      rfl
    rw [edcRounds, edcRound_xor_eq, ih, hbits, List.range_succ_eq_map, List.map_cons, List.foldl_cons, List.map_map,
      ← BitVec.shiftRight_add, Nat.add_comm 1 n]
    rfl

/-- A byte has no bits past 8. -/
theorem setWidth_byte_ushiftRight (b : Byte) : (b.setWidth 32) >>> 8 = 0#32 :=
  BitVec.eq_of_getLsbD_eq fun k _ => by simp [BitVec.getLsbD_setWidth]

/-- The low 8 bits of a word and of a byte of another width. -/
theorem map_getLsbD_setWidth {v w : Nat} (x : BitVec w) (hv : 8 ≤ v) :
    (List.range 8).map (x.setWidth v).getLsbD = (List.range 8).map x.getLsbD :=
  List.map_congr_left fun k hk => by
    have hk8 := List.mem_range.1 hk
    simp [show k < v by omega]

/-- 8 rounds take in a byte. -/
theorem edcRounds_xor_byte (acc : Word) (b : Byte) :
    edcRounds 8 (acc ^^^ b.setWidth 32) = ((List.range 8).map b.getLsbD).foldl edcBit acc := by
  rw [edcRounds_xor_eq_foldl, setWidth_byte_ushiftRight, BitVec.xor_zero, map_getLsbD_setWidth b (by omega)]

/-- 8 rounds of a word: the table entry of its low byte, while the rest is shifted. -/
theorem edcRounds_eq_edcEntry (w : Word) : edcRounds 8 w = w >>> 8 ^^^ edcEntry (w.setWidth 8) := by
  have hentry := edcRounds_xor_byte 0#32 (w.setWidth 8)
  have hword := edcRounds_xor_eq_foldl 8 0#32 w
  rw [map_getLsbD_setWidth w (by omega), BitVec.zero_xor] at hentry
  rw [← hentry, BitVec.zero_xor, BitVec.xor_comm] at hword
  exact hword

/-- The accumulator step of R91 takes in the byte's bits, bit 0 first. -/
theorem edcStep_builtTables_eq_foldl (acc : Word) (b : Byte) :
    edcStep builtTables acc b = ((List.range 8).map b.getLsbD).foldl edcBit acc := by
  rw [← edcRounds_xor_byte, edcRounds_eq_edcEntry, BitVec.ushiftRight_xor_distrib, setWidth_byte_ushiftRight,
    BitVec.xor_zero, edcStep, edcTAt_builtTables]

/-- The checksum as a fold over the message's bits. -/
theorem edcOf_builtTables_eq_foldl_messageBits (bs : List Byte) :
    edcOf builtTables bs = (messageBits bs).foldl edcBit 0#32 := by
  rw [messageBits, List.foldl_flatMap, edcOf_eq_foldl]
  congr 1
  funext acc b
  exact edcStep_builtTables_eq_foldl acc b

/-! ### The rounds as polynomial arithmetic -/

open Polynomial

/-- Bit k of the accumulator is the coefficient of x^(31 - k): the bit reversal of R98. -/
noncomputable def wordPoly (w : Word) : (ZMod 2)[X] :=
  (Finset.range 32).sum fun k => if w.getLsbD k then X ^ (31 - k) else 0

/-- The generator of R98. -/
noncomputable def edcGenerator : (ZMod 2)[X] := X ^ 32 + X ^ 31 + X ^ 16 + X ^ 15 + X ^ 4 + X ^ 3 + X + 1

/-- A message polynomial with one more bit, at the low end. -/
noncomputable def appendBit (p : (ZMod 2)[X]) (b : Bool) : (ZMod 2)[X] := p * X + (if b then 1 else 0)

theorem wordPoly_xor (u v : Word) : wordPoly (u ^^^ v) = wordPoly u + wordPoly v := by
  rw [wordPoly, wordPoly, wordPoly, ← Finset.sum_add_distrib]
  refine Finset.sum_congr rfl fun k _ => ?_
  rw [BitVec.getLsbD_xor]
  cases u.getLsbD k <;> cases v.getLsbD k <;> simp [CharTwo.add_self_eq_zero]

@[simp] theorem wordPoly_zero : wordPoly 0#32 = 0 := by simp [wordPoly]

/-- A message bit enters at the coefficient of x^31. -/
theorem wordPoly_bitWord (b : Bool) : wordPoly (bitWord b) = if b then X ^ 31 else 0 := by
  rw [wordPoly, Finset.sum_range_succ', bitWord]
  cases b <;> simp

/-- A logical shift to the right is multiplication by x, but for the bit shifted out. -/
theorem X_mul_wordPoly (e : Word) : X * wordPoly e = wordPoly (e >>> 1) + if e[0] then X ^ 32 else 0 := by
  have hshifted : wordPoly (e >>> 1)
      = (Finset.range 31).sum fun k => if e.getLsbD (k + 1) then X ^ (31 - k) else 0 := by
    rw [wordPoly, Finset.sum_range_succ]
    simp [Nat.add_comm]
  have hterm : ∀ k ∈ Finset.range 31, (X * if e.getLsbD (k + 1) then X ^ (31 - (k + 1)) else 0 : (ZMod 2)[X])
      = if e.getLsbD (k + 1) then X ^ (31 - k) else 0 := fun k hk => by
    have hk31 := Finset.mem_range.1 hk
    rw [mul_ite, mul_zero, ← pow_succ', show 31 - (k + 1) + 1 = 31 - k by omega]
  have hlow : (X * if e.getLsbD 0 then X ^ (31 - 0) else 0 : (ZMod 2)[X]) = if e[0] then X ^ 32 else 0 := by
    rw [mul_ite, mul_zero, ← pow_succ']
    rfl
  rw [hshifted, wordPoly, Finset.sum_range_succ', mul_add, Finset.mul_sum, Finset.sum_congr rfl hterm, hlow]

/-- `EDC_POLY` is the generator without its leading term (00_scope.md R5). -/
theorem wordPoly_edcPoly : wordPoly Config.edcPoly = edcGenerator + X ^ 32 := by
  have hbits : wordPoly Config.edcPoly = X ^ 31 + X ^ 16 + X ^ 15 + X ^ 4 + X ^ 3 + X + 1 := by
    simp [wordPoly, Finset.sum_range_succ, Config.edcPoly]
  have hlead : (X ^ 32 + X ^ 32 : (ZMod 2)[X]) = 0 := CharTwo.add_self_eq_zero _
  rw [hbits, edcGenerator]
  linear_combination -hlead

/-- A round multiplies by x and reduces by the generator. -/
theorem wordPoly_edcRound (e : Word) :
    wordPoly (edcRound e) = X * wordPoly e + if e[0] then edcGenerator else 0 := by
  rw [X_mul_wordPoly, edcRound]
  cases e[0] with
  | false => simp
  | true =>
    simp only [if_true]
    rw [wordPoly_xor, wordPoly_edcPoly]
    ring

theorem edcGenerator_natDegree : edcGenerator.natDegree = 32 := by
  unfold edcGenerator
  compute_degree!

theorem edcGenerator_monic : edcGenerator.Monic := by
  unfold edcGenerator
  monicity!

theorem degree_wordPoly_lt (w : Word) : (wordPoly w).degree < edcGenerator.degree := by
  rw [degree_eq_natDegree edcGenerator_monic.ne_zero, edcGenerator_natDegree, ← mem_degreeLT]
  refine Submodule.sum_mem _ fun k _ => ?_
  split_ifs
  · rw [mem_degreeLT, degree_X_pow]
    exact_mod_cast (by omega : 31 - k < 32)
  · exact Submodule.zero_mem _

/-- The accumulator stays congruent to the message so far, times x^32. -/
theorem edcGenerator_dvd_foldl (bits : List Bool) {acc : Word} {p : (ZMod 2)[X]}
    (h : edcGenerator ∣ wordPoly acc - p * X ^ 32) :
    edcGenerator ∣ wordPoly (bits.foldl edcBit acc) - bits.foldl appendBit p * X ^ 32 := by
  induction bits generalizing acc p with
  | nil => exact h
  | cons b bits ih =>
    refine ih ?_
    have hround : wordPoly (edcBit acc b) - appendBit p b * X ^ 32
        = X * (wordPoly acc - p * X ^ 32) + if (acc ^^^ bitWord b)[0] then edcGenerator else 0 := by
      rw [edcBit, wordPoly_edcRound, wordPoly_xor, wordPoly_bitWord, appendBit]
      cases b <;> simp <;> ring
    rw [hround]
    refine dvd_add (h.mul_left _) ?_
    split_ifs
    · exact dvd_rfl
    · exact dvd_zero _

/-- The checksum is the remainder of the message times x^32 modulo the generator. -/
theorem wordPoly_edcOf (bs : List Byte) :
    wordPoly (edcOf builtTables bs) = ((messageBits bs).foldl appendBit 0 * X ^ 32) %ₘ edcGenerator := by
  have hdvd := edcGenerator_dvd_foldl (messageBits bs) (acc := 0#32) (p := 0) (by simp)
  rw [← edcOf_builtTables_eq_foldl_messageBits] at hdvd
  rw [← modByMonic_eq_of_dvd_sub edcGenerator_monic hdvd,
    (modByMonic_eq_self_iff edcGenerator_monic).2 (degree_wordPoly_lt _)]

/-- Settles O21: by the invariant the tables are the built ones, under which what is stored is the remainder. -/
theorem edcIsTheRemainderModuloTheGenerator : Obligations.EdcIsTheRemainderModuloTheGenerator := by
  intro s hinv htv hsrc hdst hadm bits message generator
  refine ⟨_, edcOf builtTables (bytesAt s.mem s.x.edcArgs.src s.x.edcArgs.len),
    exec_edc_of_admitted htv (s.x.edcArgs.outOfRange_eq_false.2 ⟨hsrc, hdst⟩) hadm, fun k hk => ?_, wordPoly_edcOf _⟩
  rw [hinv.tablesBuilt htv]
  exact Memory.read_writeWordLE _ hinv.memWf hdst hk

end Sys2Proof.Machine

/-! PROOFS. The result of the ECC command for a destination apart from the span, its Reed-Solomon check sums,
degenerate geometries, and the number and order of the engines' accesses (42_ecc_engine.md R108, R112; 20_memory.md R45,
R46, R48). -/

namespace Sys2Proof.Machine

/-! ### The two halves of the destination -/

/-- No byte of the span is one of the destination. -/
def EccArgs.spanApart (g : EccArgs) : Prop :=
  ∀ i, i < g.size → g.src + i < g.dst ∨ g.dst + 2 * g.majorCount ≤ g.src + i

theorem EccArgs.spanApart_of_disjoint {g : EccArgs} (h : g.disjoint) : g.spanApart := fun i hi => by
  have hsides : g.src + g.size ≤ g.dst ∨ g.dst + 2 * g.majorCount ≤ g.src := h
  omega

section
variable (t : Tables) {g : EccArgs} (hapart : g.spanApart) {m : Memory}
include hapart

/-- Lanes leave the samples of every lane alone. -/
theorem samples_runLanes {n : Nat} (hn : n ≤ g.majorCount) {major : Nat} (hmajor : major < g.majorCount) :
    g.samples (runLanes t g n 0 m) major = g.samples m major :=
  EccArgs.samples_congr (fun i hi => read_runLanes_ne t g n m (by omega) (hapart i hi)) hmajor

/-- After `n` lanes each of them has its parity, of the span as it was, in its two destination bytes. -/
theorem read_runLanes_parity (hm : m.wf = true) (hg : g.geomOk = true) (hr : g.outOfRange = false) {n : Nat}
    (hn : n ≤ g.majorCount) {major : Nat} (hmajor : major < n) :
    (runLanes t g n 0 m).read (g.dst + major) = (laneParity t (g.samples m major)).1
      ∧ (runLanes t g n 0 m).read (g.dst + major + g.majorCount) = (laneParity t (g.samples m major)).2 := by
  have hdst := (g.outOfRange_eq_false.1 hr).2
  induction n with
  | zero => omega
  | succ n ih =>
    have hwf := wf_runLanes t g n hm (major := 0) (by omega) hdst
    rw [runLanes_succ, Nat.zero_add, read_runLane t hwf hg hn hdst, read_runLane t hwf hg hn hdst,
      samples_runLanes t hapart (by omega) hn]
    obtain hlt | rfl := Nat.lt_succ_iff_lt_or_eq.1 hmajor
    · rw [if_neg (by omega), if_neg (by omega), if_neg (by omega), if_neg (by omega)]
      exact ih (by omega) hlt
    · rw [if_neg (by omega), if_pos rfl, if_pos rfl]
      exact ⟨rfl, rfl⟩

end

/-- Settles O23: past its checks ECC runs its lanes, which leave the parity of the span as it was. -/
theorem eccLeavesParityInTwoHalves : Obligations.EccLeavesParityInTwoHalves := by
  intro s t hm _ hdis h hc
  obtain ⟨hg, hr, htm⟩ := exec_ecc_next_of_clear h hc
  rw [htm]
  exact ⟨fun major hmajor => read_runLanes_parity _ (EccArgs.spanApart_of_disjoint hdis) hm hg hr le_rfl hmajor,
    fun a ha => read_runLanes_ne _ _ _ _ (by omega) ha⟩

/-! ### The check sums -/

/-- Under the built tables the sum `a` is twice the value at 2 of the samples (R103). -/
theorem laneSums_builtTables (ds : List Byte) : laneSums builtTables ds = (eccForward (gfAtTwo ds), xorAll ds) := by
  induction ds using List.reverseRecOn with
  | nil => decide
  | append_singleton ds d ih =>
    rw [laneSums_eq_foldl] at ih ⊢
    rw [List.foldl_append, ih]
    simp [sumStep, gfAtTwo, xorAll, ← eccForward_eq_gfMul]

/-- Two bytes more at the low end of a check sum's string. -/
theorem xorAll_append_pair (ds : List Byte) (p q : Byte) : xorAll (ds ++ [p, q]) = xorAll ds ^^^ p ^^^ q := by
  simp [xorAll]

theorem gfAtTwo_append_pair (ds : List Byte) (p q : Byte) :
    gfAtTwo (ds ++ [p, q]) = eccForward (eccForward (gfAtTwo ds) ^^^ p) ^^^ q := by
  simp [gfAtTwo, eccForward_eq_gfMul]

/-- The parity bytes solve the two check equations: `ECC_B` gives the p with `p ^ 2 p = 2 a ^ b` (R105). -/
theorem checkSums_laneParity (ds : List Byte) :
    xorAll (ds ++ [(laneParity builtTables ds).1, (laneParity builtTables ds).2]) = 0#8
      ∧ gfAtTwo (ds ++ [(laneParity builtTables ds).1, (laneParity builtTables ds).2]) = 0#8 := by
  simp only [laneParity, laneSums_builtTables, eccFAt_builtTables, eccBAt_builtTables, xorAll_append_pair,
    gfAtTwo_append_pair]
  generalize xorAll ds = b
  generalize eccForward (gfAtTwo ds) = a
  have hp := eccKey_thirdOf (eccForward a ^^^ b)
  generalize thirdOf (eccForward a ^^^ b) = p at hp ⊢
  rw [eccKey] at hp
  constructor
  · rw [BitVec.xor_assoc, ← BitVec.xor_assoc p, BitVec.xor_self, BitVec.zero_xor, BitVec.xor_self]
  · calc eccForward (a ^^^ p) ^^^ (p ^^^ b) = (p ^^^ eccForward p) ^^^ (eccForward a ^^^ b) := by
          rw [eccForward_xor]
          ac_rfl
      _ = 0#8 := by rw [hp, BitVec.xor_self]

/-- Settles O24: the span is left alone, so the samples after the command are those whose parity it stored. -/
theorem eccCheckSumsOfEveryLaneVanish : Obligations.EccCheckSumsOfEveryLaneVanish := by
  intro s hinv htv hg hr hadm hdis
  refine ⟨_, exec_ecc_of_admitted htv hg hr hadm, fun major hmajor => ?_⟩
  have hapart := EccArgs.spanApart_of_disjoint hdis
  obtain ⟨hlow, hhigh⟩ := read_runLanes_parity s.tables hapart hinv.memWf hg hr le_rfl hmajor
  rw [hlow, hhigh, samples_runLanes _ hapart le_rfl hmajor, hinv.tablesBuilt htv]
  exact checkSums_laneParity _

/-! ### Degenerate geometries -/

/-- With `MAJOR_COUNT = 0` there is no lane, and nothing is accessed or changed (R108). -/
theorem exec_ecc_of_no_lanes {s : State} (htv : s.tv = true) (hmajor : s.x.eccArgs.majorCount = 0) :
    exec .ecc s = .next s ∧ s.x.eccArgs.accesses = [] := by
  have hacc : s.x.eccArgs.accesses = [] := by
    rw [EccArgs.accesses, hmajor]
    rfl
  have hrange : s.x.eccArgs.outOfRange = false := by
    rw [EccArgs.outOfRange_eq_false, EccArgs.size, hmajor, Nat.zero_mul, Nat.mul_zero]
    exact ⟨s.x.src.isLt.le, s.x.dst.isLt.le⟩
  have hadm : s.platform.admitsAll s.x.eccArgs.accesses = true := by
    rw [hacc, Platform.admitsAll_iff]
    exact fun a ha => absurd ha (by simp)
  have hexec := exec_ecc_of_admitted htv (s.x.eccArgs.geomOk_iff.2 (.inl hmajor)) hrange hadm
  rw [hmajor] at hexec
  exact ⟨hexec, hacc⟩

/-- The parity of no samples is 0 (R108). -/
theorem laneParity_builtTables_nil : laneParity builtTables [] = (0#8, 0#8) := by
  simp only [laneParity, laneSums_builtTables, eccFAt_builtTables, eccBAt_builtTables]
  decide

section
variable {g : EccArgs} (hminor : g.minorCount = 0)
include hminor

theorem EccArgs.size_of_no_samples : g.size = 0 := by rw [EccArgs.size, hminor, Nat.mul_zero]

theorem EccArgs.geomOk_of_no_samples : g.geomOk = true := g.geomOk_iff.2 (.inr (.inl hminor))

/-- With `MINOR_COUNT = 0` every access is a write. -/
theorem EccArgs.forall_mem_accesses_of_no_samples (P : Access → Prop) :
    (∀ a ∈ g.accesses, P a) ↔ ∀ k, k < 2 * g.majorCount → P ⟨.write, g.dst + k⟩ := by
  rw [EccArgs.forall_mem_accesses_iff (EccArgs.geomOk_of_no_samples hminor), hminor]
  simp

/-- With `MINOR_COUNT = 0` every lane leaves zeros, wherever the destination lies, since no byte is read. -/
theorem read_runLanes_of_no_samples {m : Memory} (hm : m.wf = true) (hr : g.outOfRange = false) {k : Nat}
    (hk : k < 2 * g.majorCount) : (runLanes builtTables g g.majorCount 0 m).read (g.dst + k) = 0x00#8 := by
  have hapart : g.spanApart := fun i hi => absurd hi (by rw [EccArgs.size_of_no_samples hminor]; omega)
  have hlane : ∀ major, major < g.majorCount →
      (runLanes builtTables g g.majorCount 0 m).read (g.dst + major) = 0x00#8
        ∧ (runLanes builtTables g g.majorCount 0 m).read (g.dst + major + g.majorCount) = 0x00#8 :=
    fun major hmajor => by
      have hnone : g.samples m major = [] := by rw [EccArgs.samples, hminor]; rfl
      have hparity := read_runLanes_parity builtTables hapart hm (EccArgs.geomOk_of_no_samples hminor) hr le_rfl hmajor
      rwa [hnone, laneParity_builtTables_nil] at hparity
  rcases Nat.lt_or_ge k g.majorCount with hlow | hhigh
  · exact (hlane k hlow).1
  · obtain ⟨major, rfl⟩ := Nat.exists_eq_add_of_le' hhigh
    exact Nat.add_assoc .. ▸ (hlane major (by omega)).2

end

/-- A step of 0 or of the whole span samples one byte over and over (R108). -/
theorem EccArgs.indices_of_whole_step {g : EccArgs} (hg : g.geomOk = true)
    (hinc : g.minorInc = 0 ∨ g.minorInc = g.size) {major : Nat} (hmajor : major < g.majorCount) :
    g.indices g.minorCount (g.laneStart major) = List.replicate g.minorCount (g.laneStart major) := by
  rcases Nat.eq_zero_or_pos g.minorCount with hzero | hpos
  · rw [hzero]
    rfl
  · obtain ⟨hle, hstart⟩ := EccArgs.bounds_of_geomOk hg hmajor hpos
    have hsame : ∀ k, (g.laneStart major + k * g.minorInc) % g.size = g.laneStart major := fun k => by
      rcases hinc with h | h
      · rw [h, Nat.mul_zero, Nat.add_zero, Nat.mod_eq_of_lt hstart]
      · rw [h, Nat.add_mul_mod_self_right, Nat.mod_eq_of_lt hstart]
    rw [EccArgs.indices_eq_map hle _ hstart]
    simp [hsame]

/-- Settles O28: the clauses are the lemmas above, one for each degenerate geometry. -/
theorem degenerateGeometriesAreComputed : Obligations.DegenerateGeometriesAreComputed := by
  refine ⟨fun s htv hmajor => exec_ecc_of_no_lanes htv (congrArg BitVec.toNat hmajor),
    fun s hinv htv hminor hdst hadm => ?_, fun g hg hinc major => EccArgs.indices_of_whole_step hg hinc,
    fun g hmult major => ?_⟩
  · have hzero : s.x.eccArgs.minorCount = 0 := congrArg BitVec.toNat hminor
    have hrange : s.x.eccArgs.outOfRange = false := by
      rw [EccArgs.outOfRange_eq_false, EccArgs.size_of_no_samples hzero]
      exact ⟨s.x.src.isLt.le, hdst⟩
    have hall := (Platform.admitsAll_iff s.platform _).2 ((EccArgs.forall_mem_accesses_of_no_samples hzero _).2 hadm)
    refine ⟨(EccArgs.forall_mem_accesses_of_no_samples hzero _).2 fun k _ => rfl, _,
      exec_ecc_of_admitted htv (EccArgs.geomOk_of_no_samples hzero) hrange hall, fun k hk => ?_,
      fun a ha => read_runLanes_ne _ _ _ _ (by omega) ha⟩
    rw [hinv.tablesBuilt htv]
    exact read_runLanes_of_no_samples hzero hinv.memWf hrange hk
  · rw [EccArgs.laneStart_eq, hmult, Nat.mul_zero, Nat.zero_add]

/-! ### The accesses -/

@[simp] theorem EccArgs.length_indices (g : EccArgs) (n i : Nat) : (g.indices n i).length = n := by
  induction n generalizing i with
  | zero => rfl
  | succ n ih => rw [EccArgs.indices, List.length_cons, ih]

/-- Of one lane's accesses `MINOR_COUNT` are reads and 2 are writes. -/
theorem EccArgs.count_laneAccesses (g : EccArgs) (major : Nat) :
    ((g.laneAccesses major).filter fun a => a.kind == .read).length = g.minorCount
      ∧ ((g.laneAccesses major).filter fun a => a.kind == .write).length = 2 := by
  simp only [EccArgs.laneAccesses, List.filter_append, List.filter_map]
  constructor <;> simp [Function.comp_def]

/-- Settles O30: both counts are lane by lane, and the order is that of `laneAccesses_eq`. -/
theorem accessesComeInTheStatedNumberAndOrder : Obligations.AccessesComeInTheStatedNumberAndOrder := by
  refine ⟨EdcArgs.accesses_eq, fun g => ?_, fun g hg => ?_, fun s => ⟨_, execInit_eq s, ?_⟩⟩
  · have hlane := fun major => g.count_laneAccesses major
    simp [EccArgs.accesses, List.filter_flatMap, List.length_flatMap, hlane, Nat.mul_comm]
  · refine List.flatMap_congr fun major hmajor => ?_
    exact EccArgs.laneAccesses_eq hg (List.mem_range.1 hmajor)
  · split <;> rfl

end Sys2Proof.Machine
